-- ==== Sys2Proof/Word.lean ====
section
/-! DEFINITION. The value types that instructions carry: the 32-bit integer, the register descriptor, text, and the
typed arguments of an instruction record (spec/00_scope.md R12, R13; spec/30_encoding.md R80). -/

namespace Sys2Proof

/-- An `Int32` of R12: 32 bits read as two's complement. `+`, `-` and `*` on it are `+32`, `-32` and `*32` of R12. -/
abbrev Word := BitVec 32

/-- A register descriptor of R83: a 32-bit value whose fields are read by the codec of Machine/Descriptor.lean.
All 32 bits are kept, the unused bits 31:25 among them. -/
abbrev Desc := BitVec 32

/-- `Text` of R13: a finite sequence of characters. -/
abbrev Text := List Char

/-- One argument of a record that is still to be checked (`Arg` of R80). A literal is any integer here: whether it is
an `Int32` is part of the construction check (R92). -/
inductive Arg where
  | reg (d : Desc)
  | num (n : Int)
  | txt (s : Text)
  deriving DecidableEq, Repr

/-- The source operand of `move` (format `F_MOV` of R82): a numeric literal, or a descriptor of either mode. -/
inductive MoveSrc where
  | num (n : Word)
  | reg (d : Desc)
  deriving DecidableEq, Repr

end Sys2Proof
end

