-- ==== Sys2Proof/Machine/Descriptor.lean ====
section
/-! DEFINITION. The addressing codec: the three fields of a register descriptor and its encoder
(spec/30_encoding.md R83 to R89). -/

namespace Sys2Proof

/-- R84: `idx(d) = d[7:0]`. -/
def Desc.idx (d : Desc) : Nat := (d.extractLsb' 0 8).toNat

/-- The 16-bit offset field `d[23:8]` of R83, before sign extension. -/
def Desc.offField (d : Desc) : BitVec 16 := d.extractLsb' 8 16

/-- R85: `off(d) = sext_16(d[23:8])`, as a 32-bit integer. -/
def Desc.off (d : Desc) : Word := d.offField.signExtend 32

/-- R86: `ind(d)`, bit 24. -/
def Desc.ind (d : Desc) : Bool := d.getLsbD 24

/-- R88: the encoder `enc(i, o, b)`; bits 31:25 of its value are zero for an index in `[0, 255]`. -/
def Desc.enc (i : Nat) (o : Int) (b : Bool) : Desc :=
  BitVec.ofNat 32 i ||| ((BitVec.ofInt 16 o).setWidth 32 <<< 8) ||| (if b then 1#32 <<< 24 else 0#32)

end Sys2Proof
end

