-- ==== Sys2Proof/Config.lean ====
section
/-! DEFINITION. The implementation parameters (spec/00_scope.md R9, R10): what the loader supplies before the machine
exists. No behaviour of this spec is left open after its decisions D1 to D40, so there is no free value here. -/

namespace Sys2Proof

/-- The parameters of R9: the register count `N`, the memory capacity `M` in cells and the stack-pointer index. -/
structure Config where
  nRegs : Nat
  memSize : Nat
  spIndex : Nat
  deriving DecidableEq, Repr

/-- R10: which configurations make a machine; any other is refused at construction. -/
abbrev Config.Legal (c : Config) : Prop :=
  16 ≤ c.nRegs ∧ c.nRegs ≤ 256 ∧ c.spIndex < c.nRegs ∧ 1 ≤ c.memSize ∧ c.memSize ≤ 2 ^ 31 - 1

/-- The reference configuration: `N = 16` and `SP_INDEX = 15` are R9's defaults. R9 leaves `M` open; `100` is the
capacity that spec/95_test_vectors.md takes unless a vector says otherwise. DESIGN CHOICE, unsafe: log entry 2. -/
def Config.reference : Config := { nRegs := 16, memSize := 100, spIndex := 15 }

end Sys2Proof
end

