-- ==== Sys2Proof/Syntax.lean ====
section
/-! DEFINITION. The instructions: one constructor per row of spec/opcode_table.json, with the typed operands of its
format (spec/30_encoding.md R80, R82, R94). -/

namespace Sys2Proof

/-- A constructed instruction record (R80). Operands stand in the order of R94. -/
inductive Instr where
  | add (rd rs1 rs2 : Desc)
  | mul (rd rs1 rs2 : Desc)
  | increment (r : Desc)
  | decrement (r : Desc)
  | load (rd : Desc) (addr : Word)
  | move (dst : Desc) (src : MoveSrc)
  | push (r : Desc)
  | pop (r : Desc)
  | call (target : Word)
  | ret
  | jump (target : Word)
  | testEquals (ra rb : Desc)
  | echo (d : Desc)
  | input (addr : Word)
  | halt
  deriving DecidableEq, Repr

end Sys2Proof
end

