-- ==== Sys2Proof/Machine/State.lean ====
section
/-! DEFINITION. The architectural state of the block (spec/10_state.md R23), its errors and run states
(spec/60_exceptions.md R162), and the reset state (R45, spec/70_reset_and_hazards.md R190). -/

namespace Sys2Proof.Machine

/-- A cell of R13: never written, an integer, a text, or an instruction record. A register never holds `instr`. -/
inductive Cell where
  | unset
  | int (n : Word)
  | text (s : Text)
  | instr (i : Instr)
  deriving DecidableEq, Repr

/-- The kind of a cell, as a diagnostic records it (R162, R165). -/
inductive Kind where
  | unset | int | text | instr
  deriving DecidableEq, Repr

/-- The sites of a type mismatch (R165). -/
inductive Site where
  | addSrc1 | addSrc2 | mulSrc1 | mulSrc2 | incrementSrc | decrementSrc
  | ea | sp | ret | loadDst | moveDst | popDst | echo
  deriving DecidableEq, Repr

/-- The execute-time fatal errors of R162, with the information each records. -/
inductive FatalError where
  /-- A register index at or above `N`. -/
  | registerOutOfRange (i : Nat)
  /-- An address outside `[0, M)`, the fetch's among them. -/
  | memoryOutOfRange (a : Word)
  /-- `SetPC` of a negative value. -/
  | negativePC (v : Word)
  /-- The fetch of a cell that holds no instruction. -/
  | notAnInstruction (a : Word) (k : Kind)
  /-- A value of the wrong kind. -/
  | typeMismatch (site : Site) (k : Kind)
  /-- End of input or a channel error at `input`. -/
  | inputChannelFailure
  deriving DecidableEq, Repr

/-- The run state of R36. `halted` and `faulted` are terminal. -/
inductive RunState where
  | running
  | halted
  | faulted (e : FatalError)
  deriving DecidableEq, Repr

/-- What `ReadLine()` answers (spec/00_scope.md R18). -/
inductive ReadResult where
  | line (t : Text)
  | endOfInput
  | channelError
  deriving DecidableEq, Repr

/-- Memory (spec/20_memory.md R50), held as the list of its written cells by address. An unlisted address reads as
`unset`. -/
abbrev Memory := List (Nat × Cell)

/-- The canonical form of a memory: addresses strictly rising, and no entry equal to what an unlisted address reads as,
so that equal memories are equal lists. -/
abbrev Memory.wf (m : Memory) : Prop :=
  m.Pairwise (fun x y => x.1 < y.1) ∧ ∀ e ∈ m, e.2 ≠ .unset

/-- The state of R23: `regs`, `pc`, `flag`, `mem`, `run` and `out`. The register count `N` is the length of `regs`.
`memSize` and `spIndex` are the parameters `M` and `SP_INDEX` of R9, which no step changes, so that a statement about
every state is one about every configuration (log entry 1). `input` is the model's own field: the answers the host has
given to `ReadLine` and the block has not yet taken, oldest first (log entry 5). -/
structure State where
  regs : List Cell
  pc : Word
  flag : Bool
  mem : Memory
  run : RunState
  out : Text
  memSize : Nat
  spIndex : Nat
  input : List ReadResult
  deriving DecidableEq, Repr

/-- Why no step is taken. None of these is an error of the spec: a fatal error of R162 is a next state whose `run` is
`faulted` (log entry 4). -/
inductive Fault where
  /-- Raised by the step of a machine whose run has ended at `halt` (R36: no step leaves `Halted`). Safe: the machine
  takes no step either. -/
  | halted
  /-- Raised by the step of a machine whose run has ended in the fatal error `e` (R36, R160). Safe, as `halted`. -/
  | faulted (e : FatalError)
  /-- Raised by `input` while the host has not answered `ReadLine` (spec/44_io_and_halt.md R153: no step is taken and
  the state is unchanged; stuck). Safe: the machine goes on once an answer stands in `State.input`. -/
  | awaitingInput
  deriving DecidableEq, Repr

/-- Why an instruction has no meaning here. -/
inductive Refusal where
  /-- Raised by an arm of `exec` whose instruction has no meaning yet. Safe: nothing is claimed of it. No arm is left
  so. -/
  | notModelled (mnemonic : String)
  deriving DecidableEq, Repr

/-- Reset (R45, R190) of the reference configuration, with nothing loaded and no input answered: every register
`Unset`, the stack pointer among them, `pc = 0`, `flag = false`, memory `Unset`, `run = Running`, `out` empty. -/
def State.reset : State where
  regs := List.replicate Config.reference.nRegs .unset
  pc := 0
  flag := false
  mem := []
  run := .running
  out := []
  memSize := Config.reference.memSize
  spIndex := Config.reference.spIndex
  input := []

end Sys2Proof.Machine
end

