-- ==== Sys2Proof/Machine/Ops.lean ====
section
/-! DEFINITION. The primitives of spec/00_scope.md R14: actions that may raise, the raw register and memory accesses,
the program counter, the stack helper, the I/O channel, and raising a fatal error. -/

namespace Sys2Proof.Machine

/-! ### Actions: pseudocode statements in order, the first `raise` ending the instruction (R14, R168) -/

/-- The result of an action: a value with the state after it, or the first error raised with the state at the raising
statement (R161). -/
inductive Res (α : Type) where
  | ok (a : α) (s : State)
  | err (e : FatalError) (s : State)
  deriving DecidableEq, Repr

/-- A piece of an instruction's pseudocode. -/
abbrev Act (α : Type) := State → Res α

/-- A value, with no effect. -/
def Act.pure {α : Type} (a : α) : Act α := fun s => .ok a s

/-- `raise e` (R14). -/
def Act.fail {α : Type} (e : FatalError) : Act α := fun s => .err e s

/-- One statement, then the rest; an error of the first ends both, its effects so far kept (R161). -/
def Act.bind {α β : Type} (m : Act α) (f : α → Act β) : Act β := fun s =>
  match m s with
  | .ok a t => f a t
  | .err e t => .err e t

/-! ### Fatal errors -/

/-- TAKING A FATAL ERROR (R160, R161, R170): the run ends in `Faulted(e)`. Nothing else changes: `pc` keeps the faulting
instruction's address, and what the instruction wrote before stays. There is no handler, no saved context and no
return (R171). -/
def State.raise (e : FatalError) (s : State) : State := { s with run := .faulted e }

/-- The outcome of an instruction's pseudocode. -/
def finish {α : Type} : Res α → Host.Outcome State Fault Refusal
  | .ok _ s => .next s
  | .err e s => .next (s.raise e)

/-- The code of an error (R162). -/
def FatalError.code : FatalError → Nat
  | .registerOutOfRange _ => 1
  | .memoryOutOfRange _ => 2
  | .negativePC _ => 3
  | .notAnInstruction _ _ => 4
  | .typeMismatch _ _ => 5
  | .inputChannelFailure => 6

/-- `kind(c)` (R165). -/
def Cell.kind : Cell → Kind
  | .unset => .unset
  | .int _ => .int
  | .text _ => .text
  | .instr _ => .instr

/-- `AsInt(c, site)` (R165). -/
def asInt (site : Site) (c : Cell) : Act Word :=
  match c with
  | .int n => Act.pure n
  | .unset => Act.fail (.typeMismatch site .unset)
  | .text _ => Act.fail (.typeMismatch site .text)
  | .instr _ => Act.fail (.typeMismatch site .instr)

/-! ### Registers (R24, R25) -/

/-- The register count `N` (R26). -/
def State.nRegs (s : State) : Nat := s.regs.length

/-- Store a cell in register `i`. -/
def State.setReg (i : Nat) (c : Cell) (s : State) : State := { s with regs := s.regs.set i c }

/-- Raw register read `x[i]` (R24). -/
def readReg (i : Nat) : Act Cell := fun s =>
  match s.regs[i]? with
  | some c => .ok c s
  | none => .err (.registerOutOfRange i) s

/-- Raw register write `x[i] <- c` (R25) at a site where `c` may be an instruction record. -/
def writeReg (site : Site) (i : Nat) (c : Cell) : Act Unit := fun s =>
  if i < s.nRegs then
    match c with
    | .instr _ => .err (.typeMismatch site .instr) s
    | .unset => .ok () (s.setReg i .unset)
    | .int n => .ok () (s.setReg i (.int n))
    | .text t => .ok () (s.setReg i (.text t))
  else .err (.registerOutOfRange i) s

/-- Raw register write `x[i] <- I(n)` (R25): an integer is never an instruction record, so it has no site. -/
def writeInt (i : Nat) (n : Word) : Act Unit := fun s =>
  if i < s.nRegs then .ok () (s.setReg i (.int n)) else .err (.registerOutOfRange i) s

/-! ### Memory (R50 to R52) -/

/-- The cell at an address; an address not listed is `unset` (R45, R50). -/
def Memory.read : Memory → Nat → Cell
  | [], _ => .unset
  | (k, c) :: m, a => if k = a then c else Memory.read m a

/-- Put a value at an address, keeping the addresses rising. -/
def Memory.insert (a : Nat) (c : Cell) : Memory → Memory
  | [] => [(a, c)]
  | (k, d) :: m =>
    if a < k then (a, c) :: (k, d) :: m
    else if a = k then (a, c) :: m
    else (k, d) :: Memory.insert a c m

/-- Write a cell at an address. Writing `unset` removes the entry, so that the form stays canonical. -/
def Memory.write (m : Memory) (a : Nat) (c : Cell) : Memory :=
  if c = .unset then m.filter (fun e => e.1 ≠ a) else Memory.insert a c m

/-- `a` lies in `[0, M)`, read as a signed integer (R51). -/
abbrev State.InMem (s : State) (a : Word) : Prop := 0 ≤ a.toInt ∧ a.toInt < s.memSize

/-- The cell at address `a` of `[0, M)`. -/
def State.cellAt (s : State) (a : Word) : Cell := s.mem.read a.toNat

/-- Store a cell at address `a` of `[0, M)`. -/
def State.setCell (a : Word) (c : Cell) (s : State) : State := { s with mem := s.mem.write a.toNat c }

/-- Raw memory read `MemRead(a, 1)` (R51): no lazy zero. -/
def memRead (a : Word) : Act Cell := fun s =>
  if s.InMem a then .ok (s.cellAt a) s else .err (.memoryOutOfRange a) s

/-- Raw memory write `MemWrite(a, 1, c)` (R52): any kind, over any kind. -/
def memWrite (a : Word) (c : Cell) : Act Unit := fun s =>
  if s.InMem a then .ok () (s.setCell a c) else .err (.memoryOutOfRange a) s

/-! ### The program counter (R30 to R33) -/

/-- `SetPC(v)` (R31): no upper bound is checked here. -/
def setPc (v : Word) : Act Unit := fun s =>
  if v.toInt < 0 then .err (.negativePC v) s else .ok () { s with pc := v }

/-- `IncPC` (R32): no check; it wraps. -/
def State.incPc (s : State) : State := { s with pc := s.pc + 1 }

/-! ### The stack helper (R60, R61) -/

/-- The stack pointer as an integer, read raw (R60, R61). -/
def readSp : Act Word := fun s => (readReg s.spIndex).bind (asInt .sp) s

/-- Write the stack pointer. -/
def writeSp (n : Word) : Act Unit := fun s => writeInt s.spIndex n s

/-- `StackPush(v)` (R60): the cell at the stack pointer is written, then the pointer goes down by one. -/
def stackPush (v : Cell) : Act Unit :=
  readSp.bind fun sp =>
  (memWrite sp v).bind fun _ =>
  writeSp (sp - 1)

/-- `StackPop()` (R61): the pointer goes up by one, then the cell there is read raw. -/
def stackPop : Act Cell :=
  readSp.bind fun sp =>
  (writeSp (sp + 1)).bind fun _ =>
  memRead (sp + 1)

/-! ### The I/O channel (spec/00_scope.md R18) -/

/-- `ReadLine()`: the oldest answer the host has given, which is thereby used up; none while there is no answer. -/
def State.readLine (s : State) : Option (ReadResult × State) :=
  match s.input with
  | [] => none
  | r :: rest => some (r, { s with input := rest })

/-- `Write(t)`: appends to the output stream and never fails (D19). -/
def writeOut (t : Text) : Act Unit := fun s => .ok () { s with out := s.out ++ t }

/-- What the host does when it answers a `ReadLine`. No instruction does this. -/
def State.answer (r : ReadResult) (s : State) : State := { s with input := s.input ++ [r] }

end Sys2Proof.Machine
end

