-- ==== Sys2Proof/Machine/Operands.lean ====
section
/-! DEFINITION. The storage accessor: reads and writes through a register descriptor (spec/20_memory.md R54 to R57;
the addressing modes of spec/41_data_movement.md R122). -/

namespace Sys2Proof.Machine

/-- `EA(d)` (R54): the base register is read raw and must already hold an integer; the sum wraps and is not range
checked here. -/
def ea (d : Desc) : Act Word :=
  (readReg d.idx).bind fun base =>
  (asInt .ea base).bind fun b =>
  Act.pure (b + d.off)

/-- Read register `i` through the accessor: a never-written register is first written with zero (R55, R56). -/
def resolveReg (i : Nat) : Act Cell :=
  (readReg i).bind fun c =>
  match c with
  | .unset => (writeInt i 0).bind fun _ => readReg i
  | .int n => Act.pure (.int n)
  | .text t => Act.pure (.text t)
  | .instr x => Act.pure (.instr x)

/-- Read memory cell `a` through the accessor: a never-written cell is first written with zero (R55, R56). -/
def resolveMem (a : Word) : Act Cell :=
  (memRead a).bind fun c =>
  match c with
  | .unset => (memWrite a (.int 0)).bind fun _ => memRead a
  | .int n => Act.pure (.int n)
  | .text t => Act.pure (.text t)
  | .instr x => Act.pure (.instr x)

/-- `Resolve(d)` (R55). The offset field of a direct descriptor has no effect. -/
def resolve (d : Desc) : Act Cell :=
  if d.ind then (ea d).bind resolveMem else resolveReg d.idx

/-- `Assign(d, c)` (R57); the site is that of the calling instruction (V-E20). The base register is read when this
runs. -/
def assign (site : Site) (d : Desc) (c : Cell) : Act Unit :=
  if d.ind then (ea d).bind fun a => memWrite a c else writeReg site d.idx c

/-- The value of `move`'s source operand (R121). -/
def moveSource : MoveSrc → Act Cell
  | .num n => Act.pure (.int n)
  | .reg d => resolve d

end Sys2Proof.Machine
end

