-- ==== Sys2Proof/Machine/Arithmetic.lean ====
section
/-! DEFINITION. The arithmetic instructions: add, mul, increment, decrement (spec/40_arithmetic.md R110 to R114). -/

namespace Sys2Proof.Machine

/-- The shape of R110 and R111: both sources are resolved, then both are checked, then the destination is written. -/
def binaryOp (f : Word → Word → Word) (site1 site2 : Site) (rd rs1 rs2 : Desc) : Act Unit :=
  (resolve rs1).bind fun a =>
  (resolve rs2).bind fun b =>
  (asInt site1 a).bind fun na =>
  (asInt site2 b).bind fun nb =>
  writeInt rd.idx (f na nb)

/-- The shape of R112 and R113. -/
def unaryOp (f : Word → Word) (site : Site) (r : Desc) : Act Unit :=
  (resolve r).bind fun a =>
  (asInt site a).bind fun n =>
  writeInt r.idx (f n)

/-- `add rd, rs1, rs2` (R110). -/
def execAdd (rd rs1 rs2 : Desc) (s : State) : Host.Outcome State Fault Refusal :=
  finish (binaryOp (· + ·) .addSrc1 .addSrc2 rd rs1 rs2 s)

/-- `mul rd, rs1, rs2` (R111). -/
def execMul (rd rs1 rs2 : Desc) (s : State) : Host.Outcome State Fault Refusal :=
  finish (binaryOp (· * ·) .mulSrc1 .mulSrc2 rd rs1 rs2 s)

/-- `increment r` (R112). -/
def execIncrement (r : Desc) (s : State) : Host.Outcome State Fault Refusal :=
  finish (unaryOp (· + 1) .incrementSrc r s)

/-- `decrement r` (R113). -/
def execDecrement (r : Desc) (s : State) : Host.Outcome State Fault Refusal :=
  finish (unaryOp (· - 1) .decrementSrc r s)

end Sys2Proof.Machine
end

