-- ==== Sys2Proof/Machine/Flags.lean ====
section
/-! DEFINITION. The one flag (spec/10_state.md R34) and the comparison that sets it
(spec/43_control_and_compare.md R141). -/

namespace Sys2Proof.Machine

/-- `flag <- b` (R34). -/
def setFlag (b : Bool) : Act Unit := fun s => .ok () { s with flag := b }

/-- `a == b` of R141, structural equality of values: the same kind, with the same integer or the same character
sequence. -/
def valuesEqual (a b : Cell) : Bool := decide (a = b)

end Sys2Proof.Machine
end

