-- ==== Sys2Proof/Machine/Control.lean ====
section
/-! DEFINITION. Control transfer and comparison: jump, testEquals (spec/43_control_and_compare.md R140, R141). -/

namespace Sys2Proof.Machine

/-- `jump target` (R140): `pc` is the target less one, which the loop's increment makes the target. -/
def execJump (target : Word) (s : State) : Host.Outcome State Fault Refusal :=
  finish (setPc (target - 1) s)

/-- `testEquals ra, rb` (R141). -/
def execTestEquals (ra rb : Desc) (s : State) : Host.Outcome State Fault Refusal :=
  finish (((resolve ra).bind fun a => (resolve rb).bind fun b => setFlag (valuesEqual a b)) s)

end Sys2Proof.Machine
end

