-- ==== Sys2Proof/Machine/DataMovement.lean ====
section
/-! DEFINITION. The data movement instructions: load, move (spec/41_data_movement.md R120, R121). -/

namespace Sys2Proof.Machine

/-- `load rd, addr` (R120): a raw read, so `Unset` is copied and nothing is materialised. -/
def execLoad (rd : Desc) (addr : Word) (s : State) : Host.Outcome State Fault Refusal :=
  finish (((memRead addr).bind fun c => writeReg .loadDst rd.idx c) s)

/-- `move dst, src` (R121): the source is resolved, then the destination is assigned. -/
def execMove (dst : Desc) (src : MoveSrc) (s : State) : Host.Outcome State Fault Refusal :=
  finish (((moveSource src).bind fun v => assign .moveDst dst v) s)

end Sys2Proof.Machine
end

