-- ==== Sys2Proof/Machine/Text.lean ====
section
/-! DEFINITION. Integers as text: what `echo` writes and what `input` reads (spec/44_io_and_halt.md R150, R151). -/

namespace Sys2Proof.Machine

/-- The character of a decimal digit. -/
def digitChar (d : Nat) : Char := Char.ofNat (48 + d)

/-- The value of an ASCII digit; any other character has none. -/
def digitVal (c : Char) : Option Nat :=
  if 48 ≤ c.toNat ∧ c.toNat ≤ 57 then some (c.toNat - 48) else none

/-- The last `fuel` or fewer decimal digits of `n`, with no leading zero. -/
def natDigits : Nat → Nat → Text
  | 0, _ => []
  | fuel + 1, n => if n < 10 then [digitChar n] else natDigits fuel (n / 10) ++ [digitChar (n % 10)]

/-- `Decimal(n)` (R150). Ten digits hold every magnitude of an `Int32`. -/
def decimal (n : Word) : Text :=
  if n.toInt < 0 then '-' :: natDigits 10 n.toInt.natAbs else natDigits 10 n.toInt.natAbs

/-- The value of a digit string read after `acc`. -/
def parseDigits (acc : Nat) : Text → Option Nat
  | [] => some acc
  | c :: cs =>
    match digitVal c with
    | some d => parseDigits (10 * acc + d) cs
    | none => none

/-- The value of a nonempty digit string. -/
def parseNat : Text → Option Nat
  | [] => none
  | c :: cs => parseDigits 0 (c :: cs)

/-- An integer that is an `Int32`. -/
def int32? (n : Int) : Option Word :=
  if -2 ^ 31 ≤ n ∧ n ≤ 2 ^ 31 - 1 then some (BitVec.ofInt 32 n) else none

/-- `ParseInt32(t)` (R151): `[+-]?[0-9]+`, with a value in range. -/
def parseInt32 (t : Text) : Option Word :=
  match t with
  | '-' :: cs => (parseNat cs).bind fun n => int32? (-(n : Int))
  | '+' :: cs => (parseNat cs).bind fun n => int32? n
  | cs => (parseNat cs).bind fun n => int32? n

end Sys2Proof.Machine
end

