-- ==== Sys2Proof/Machine/InputOutput.lean ====
section
/-! DEFINITION. I/O and halt: echo, input, halt (spec/44_io_and_halt.md R150 to R153). -/

namespace Sys2Proof.Machine

/-- The text `echo` writes for a value (R150). `Resolve` never answers `Unset`; an `Unset` would be a mismatch. -/
def textOf (v : Cell) : Act Text :=
  match v with
  | .int n => Act.pure (decimal n)
  | .text t => Act.pure t
  | .instr _ => Act.fail (.typeMismatch .echo .instr)
  | .unset => Act.fail (.typeMismatch .echo .unset)

/-- `echo d` (R150). -/
def execEcho (d : Desc) (s : State) : Host.Outcome State Fault Refusal :=
  finish (((resolve d).bind fun v => (textOf v).bind writeOut) s)

/-- What `input addr` does with the host's answer (R151). The address is checked only when a value is stored. -/
def acceptLine (addr : Word) (r : ReadResult) : Act Unit :=
  match r with
  | .endOfInput => Act.fail .inputChannelFailure
  | .channelError => Act.fail .inputChannelFailure
  | .line t =>
    match parseInt32 t with
    | some n => (memWrite addr (.int n)).bind fun _ => setFlag true
    | none => setFlag false

/-- `input addr` (R151). While the host has not answered, no step is taken (R153). -/
def execInput (addr : Word) (s : State) : Host.Outcome State Fault Refusal :=
  match s.readLine with
  | none => .fault .awaitingInput
  | some (r, t) => finish (acceptLine addr r t)

/-- `halt` (R152): the run ends, and nothing but `run` changes. -/
def execHalt (s : State) : Host.Outcome State Fault Refusal :=
  .next { s with run := .halted }

end Sys2Proof.Machine
end

