-- ==== Sys2Proof/Machine/Stack.lean ====
section
/-! DEFINITION. The stack and call instructions: push, pop, call, ret (spec/42_stack_and_calls.md R130 to R133). -/

namespace Sys2Proof.Machine

/-- `push r` (R130). -/
def execPush (r : Desc) (s : State) : Host.Outcome State Fault Refusal :=
  finish (((resolve r).bind fun v => stackPush v) s)

/-- `pop r` (R131): the popped cell is assigned raw, so `Unset` is copied. `r` is direct (R82), so `Assign(r, c)` is
the register write `x[idx(r)] <- c`. -/
def execPop (r : Desc) (s : State) : Host.Outcome State Fault Refusal :=
  finish ((stackPop.bind fun c => writeReg .popDst r.idx c) s)

/-- `call target` (R132): the call's own address is pushed, then `pc` is the target less one, which the loop's
increment makes the target. -/
def execCall (target : Word) (s : State) : Host.Outcome State Fault Refusal :=
  finish (((stackPush (.int s.pc)).bind fun _ => setPc (target - 1)) s)

/-- `ret` (R133): `pc` is the popped integer, with no `-1`. -/
def execRet (s : State) : Host.Outcome State Fault Refusal :=
  finish ((stackPop.bind fun c => (asInt .ret c).bind fun a => setPc a) s)

end Sys2Proof.Machine
end

