-- ==== Sys2Proof/Machine/Dispatch.lean ====
section
/-! DEFINITION. The dispatch of an instruction to its meaning (spec/30_encoding.md R81). -/

namespace Sys2Proof.Machine

/-- `Execute(ins)` of spec/10_state.md R40. -/
def exec (i : Instr) (s : State) : Host.Outcome State Fault Refusal :=
  match i with
  | .add rd rs1 rs2 => Sys2Proof.Machine.execAdd rd rs1 rs2 s
  | .mul rd rs1 rs2 => Sys2Proof.Machine.execMul rd rs1 rs2 s
  | .increment r => Sys2Proof.Machine.execIncrement r s
  | .decrement r => Sys2Proof.Machine.execDecrement r s
  | .load rd addr => Sys2Proof.Machine.execLoad rd addr s
  | .move dst src => Sys2Proof.Machine.execMove dst src s
  | .push r => Sys2Proof.Machine.execPush r s
  | .pop r => Sys2Proof.Machine.execPop r s
  | .call target => Sys2Proof.Machine.execCall target s
  | .ret => Sys2Proof.Machine.execRet s
  | .jump target => Sys2Proof.Machine.execJump target s
  | .testEquals ra rb => Sys2Proof.Machine.execTestEquals ra rb s
  | .echo d => Sys2Proof.Machine.execEcho d s
  | .input addr => Sys2Proof.Machine.execInput addr s
  | .halt => Sys2Proof.Machine.execHalt s

end Sys2Proof.Machine
end

