-- ==== Sys2Proof/WellFormed.lean ====
section
/-! DEFINITION. Which instruction records the construction check lets exist (spec/30_encoding.md R82, R92): the typed
operands of `Instr` already fix arity, argument kinds and literal range, so what is left is that a descriptor at an
`R` position is direct. -/

namespace Sys2Proof

/-- Every descriptor at an `R` position of the instruction's format (R82) is direct; a `D` position (`move`, `echo`)
takes either mode, and a descriptor's index is not compared with `N` (R93). -/
def Instr.wf : Instr → Bool
  | .add rd rs1 rs2 => !rd.ind && !rs1.ind && !rs2.ind
  | .mul rd rs1 rs2 => !rd.ind && !rs1.ind && !rs2.ind
  | .increment r => !r.ind
  | .decrement r => !r.ind
  | .load rd _ => !rd.ind
  | .move _ _ => true
  | .push r => !r.ind
  | .pop r => !r.ind
  | .call _ => true
  | .ret => true
  | .jump _ => true
  | .testEquals ra rb => !ra.ind && !rb.ind
  | .echo _ => true
  | .input _ => true
  | .halt => true

end Sys2Proof
end

