-- ==== Sys2Proof/Decode.lean ====
section
/-! DEFINITION. The decoder and the encoder. This hardware has no binary instruction word (spec/30_encoding.md R80,
spec/92_eei_decisions.md D22): what is decoded is a record, an opcode name with a list of tagged arguments, and the
decoder is the construction check of R92. It is total on every record and rejects by name. -/

namespace Sys2Proof

/-- `Opcode` of R80. -/
inductive Opcode where
  | add | mul | increment | decrement | load | move | push | pop
  | call | ret | jump | testEquals | echo | input | halt
  deriving DecidableEq, Repr

/-- A record before the construction check: a name and its arguments (R80, R92). -/
structure RawInstr where
  name : String
  args : List Arg
  deriving DecidableEq, Repr

/-- Why a record cannot be built (R92). Positions count from 1. -/
inductive ConstructionReason where
  | unknownOpcode
  | arity
  | argumentKind (p : Nat)
  | literalRange (p : Nat)
  deriving DecidableEq, Repr

/-- `ConstructionError(name, reason)` of R92, R166. -/
structure ConstructionError where
  name : String
  reason : ConstructionReason
  deriving DecidableEq, Repr

/-- The opcode names of R94, spelled exactly so (D24). -/
def Opcode.name : Opcode → String
  | .add => "add" | .mul => "mul" | .increment => "increment" | .decrement => "decrement"
  | .load => "load" | .move => "move" | .push => "push" | .pop => "pop"
  | .call => "call" | .ret => "ret" | .jump => "jump" | .testEquals => "testEquals"
  | .echo => "echo" | .input => "input" | .halt => "halt"

/-- R92's first line: the opcode of a name; every other name is unknown. -/
def Opcode.ofName (name : String) : Option Opcode :=
  match name with
  | "add" => some .add | "mul" => some .mul | "increment" => some .increment | "decrement" => some .decrement
  | "load" => some .load | "move" => some .move | "push" => some .push | "pop" => some .pop
  | "call" => some .call | "ret" => some .ret | "jump" => some .jump | "testEquals" => some .testEquals
  | "echo" => some .echo | "input" => some .input | "halt" => some .halt
  | _ => none

/-! ### One argument at one position (R92) -/

/-- An `R` position: a direct register descriptor. -/
def takeR (p : Nat) : Arg → Except ConstructionReason Desc
  | .reg d => if d.ind then .error (.argumentKind p) else .ok d
  | .num _ => .error (.argumentKind p)
  | .txt _ => .error (.argumentKind p)

/-- A `D` position: a register descriptor of either mode. -/
def takeD (p : Nat) : Arg → Except ConstructionReason Desc
  | .reg d => .ok d
  | .num _ => .error (.argumentKind p)
  | .txt _ => .error (.argumentKind p)

/-- A literal is an `Int32` or cannot be built (R90). -/
def takeInt32 (p : Nat) (n : Int) : Except ConstructionReason Word :=
  if -2 ^ 31 ≤ n ∧ n ≤ 2 ^ 31 - 1 then .ok (BitVec.ofInt 32 n) else .error (.literalRange p)

/-- An `N` position: a numeric literal. -/
def takeN (p : Nat) : Arg → Except ConstructionReason Word
  | .num n => takeInt32 p n
  | .reg _ => .error (.argumentKind p)
  | .txt _ => .error (.argumentKind p)

/-- The source position of `F_MOV`: a descriptor of either mode or a literal; text is rejected (R91). -/
def takeMoveSrc (p : Nat) : Arg → Except ConstructionReason MoveSrc
  | .reg d => .ok (.reg d)
  | .num n => (takeInt32 p n).map .num
  | .txt _ => .error (.argumentKind p)

/-! ### One builder per format (R82): arity first, then the positions from left to right -/

/-- `F0`. -/
def buildNone (i : Instr) : List Arg → Except ConstructionReason Instr
  | [] => .ok i
  | _ => .error .arity

/-- `F_R`. -/
def buildR (mk : Desc → Instr) : List Arg → Except ConstructionReason Instr
  | [a] => (takeR 1 a).map mk
  | _ => .error .arity

/-- `F_D`. -/
def buildD (mk : Desc → Instr) : List Arg → Except ConstructionReason Instr
  | [a] => (takeD 1 a).map mk
  | _ => .error .arity

/-- `F_N`. -/
def buildN (mk : Word → Instr) : List Arg → Except ConstructionReason Instr
  | [a] => (takeN 1 a).map mk
  | _ => .error .arity

/-- `F_RN`. -/
def buildRN (mk : Desc → Word → Instr) : List Arg → Except ConstructionReason Instr
  | [a, b] => (takeR 1 a).bind fun x => (takeN 2 b).map (mk x)
  | _ => .error .arity

/-- `F_RR`. -/
def buildRR (mk : Desc → Desc → Instr) : List Arg → Except ConstructionReason Instr
  | [a, b] => (takeR 1 a).bind fun x => (takeR 2 b).map (mk x)
  | _ => .error .arity

/-- `F_RRR`. -/
def buildRRR (mk : Desc → Desc → Desc → Instr) : List Arg → Except ConstructionReason Instr
  | [a, b, c] => (takeR 1 a).bind fun x => (takeR 2 b).bind fun y => (takeR 3 c).map (mk x y)
  | _ => .error .arity

/-- `F_MOV`. -/
def buildMov (mk : Desc → MoveSrc → Instr) : List Arg → Except ConstructionReason Instr
  | [a, b] => (takeD 1 a).bind fun x => (takeMoveSrc 2 b).map (mk x)
  | _ => .error .arity

/-- The format of each opcode (R94), applied to an argument list. -/
def construct : Opcode → List Arg → Except ConstructionReason Instr
  | .add => buildRRR .add
  | .mul => buildRRR .mul
  | .increment => buildR .increment
  | .decrement => buildR .decrement
  | .load => buildRN .load
  | .move => buildMov .move
  | .push => buildR .push
  | .pop => buildR .pop
  | .call => buildN .call
  | .ret => buildNone .ret
  | .jump => buildN .jump
  | .testEquals => buildRR .testEquals
  | .echo => buildD .echo
  | .input => buildN .input
  | .halt => buildNone .halt

/-- `Construct(name, args)` of R92: the instruction, or the named reason why it cannot be built. -/
def decode (r : RawInstr) : Except ConstructionError Instr :=
  match Opcode.ofName r.name with
  | none => .error ⟨r.name, .unknownOpcode⟩
  | some op => (construct op r.args).mapError (ConstructionError.mk r.name)

/-! ### The encoder -/

/-- The opcode of an instruction. -/
def Instr.opcode : Instr → Opcode
  | .add .. => .add | .mul .. => .mul | .increment _ => .increment | .decrement _ => .decrement
  | .load .. => .load | .move .. => .move | .push _ => .push | .pop _ => .pop
  | .call _ => .call | .ret => .ret | .jump _ => .jump | .testEquals .. => .testEquals
  | .echo _ => .echo | .input _ => .input | .halt => .halt

/-- The argument that names `move`'s source. -/
def MoveSrc.arg : MoveSrc → Arg
  | .num n => .num n.toInt
  | .reg d => .reg d

/-- The argument list of an instruction, in the operand order of R94. -/
def Instr.args : Instr → List Arg
  | .add rd rs1 rs2 => [.reg rd, .reg rs1, .reg rs2]
  | .mul rd rs1 rs2 => [.reg rd, .reg rs1, .reg rs2]
  | .increment r => [.reg r]
  | .decrement r => [.reg r]
  | .load rd addr => [.reg rd, .num addr.toInt]
  | .move dst src => [.reg dst, src.arg]
  | .push r => [.reg r]
  | .pop r => [.reg r]
  | .call target => [.num target.toInt]
  | .ret => []
  | .jump target => [.num target.toInt]
  | .testEquals ra rb => [.reg ra, .reg rb]
  | .echo d => [.reg d]
  | .input addr => [.num addr.toInt]
  | .halt => []

/-- The record `{ op, args }` of an instruction (R80, R94). -/
def encode (i : Instr) : RawInstr := { name := i.opcode.name, args := i.args }

/-! ### The host's table words -/

/-- The record that a word of bits names: none, for any word. spec/opcode_table.json gives no row a bit, and "the
source has no binary instruction word" (R80, D22); spec/91_not_in_source.md N16 forbids assuming opcode numbers.
DEDUCED, safe: log entry 7. -/
def wordRecord (_nbits _w : Nat) : Option RawInstr := none

/-- The instruction the decoder reads from a table word: it decodes the record the word names, and refuses where it
names none. -/
def decodeTableWord (nbits w : Nat) : Option Instr :=
  (wordRecord nbits w).bind fun r => (decode r).toOption

end Sys2Proof
end

