-- ==== Sys2Proof/Machine/Loop.lean ====
section
/-! DEFINITION. The fetch-execute loop around `Execute` (spec/10_state.md R40, R41). -/

namespace Sys2Proof.Machine

/-- The fetch of R40: the record in the cell at `pc`. -/
def fetch : Act Instr := fun s =>
  (memRead s.pc).bind (fun c =>
    match c with
    | .instr i => Act.pure i
    | .unset => Act.fail (.notAnInstruction s.pc .unset)
    | .int _ => Act.fail (.notAnInstruction s.pc .int)
    | .text _ => Act.fail (.notAnInstruction s.pc .text)) s

/-- The end of a step (R40): `IncPC`, unless the run has ended. -/
def retire : Host.Outcome State Fault Refusal → Host.Outcome State Fault Refusal
  | .next t =>
    match t.run with
    | .running => .next t.incPc
    | .halted => .next t
    | .faulted _ => .next t
  | .fault f => .fault f
  | .refused r => .refused r

/-- `Step` of R40, for a given `Execute`: taken only while the run goes on (R36). -/
def stepWith (ex : Instr → State → Host.Outcome State Fault Refusal) (s : State) :
    Host.Outcome State Fault Refusal :=
  match s.run with
  | .running =>
    match fetch s with
    | .ok i t => retire (ex i t)
    | .err e t => .next (t.raise e)
  | .halted => .fault .halted
  | .faulted e => .fault (.faulted e)

/-- Place a record in the cell that the next step fetches. -/
def State.withFetchInstr (s : State) (i : Instr) : State := s.setCell s.pc (.instr i)

/-- Place the instruction that a table word names in the cell that the next step fetches; a word that names none
places nothing. -/
def State.placeTableWord (s : State) (nbits w : Nat) : State :=
  match decodeTableWord nbits w with
  | some i => s.withFetchInstr i
  | none => s

end Sys2Proof.Machine
end

