-- ==== Sys2Proof/Machine/Boot.lean ====
section
/-! DEFINITION. Machine construction and loading (spec/70_reset_and_hazards.md R190; spec/00_scope.md R10, R16, R17). -/

namespace Sys2Proof.Machine

/-- What the loader puts in one cell: literal data, or a record it has still to build (R17). -/
inductive ImageItem where
  | int (n : Word)
  | text (t : Text)
  | record (r : RawInstr)
  deriving DecidableEq, Repr

/-- Why a machine does not start (R166). Which one is reported where several apply is a DESIGN CHOICE, unsafe for a
claim about which: log entry 19. -/
inductive BootError where
  /-- The parameters are outside R10. -/
  | configuration
  /-- A record of the image cannot be built (R92). -/
  | construction (e : ConstructionError)
  /-- The image names an address outside memory. DESIGN CHOICE, safe: log entry 9. -/
  | imageOutOfRange (a : Nat)
  deriving DecidableEq, Repr

/-- The numbers of R166; the image's own error has none there. -/
def BootError.code : BootError → Option Nat
  | .construction _ => some 100
  | .configuration => some 101
  | .imageOutOfRange _ => none

/-- The cell the loader stores for an item: it runs the construction check on every record (R17). -/
def ImageItem.cell : ImageItem → Except BootError Cell
  | .int n => .ok (.int n)
  | .text t => .ok (.text t)
  | .record r => ((decode r).map .instr).mapError .construction

/-- Fill memory from the image, in its order: the first item that fails is reported, and an item's address is tested
before its record is built. Both orders are a DESIGN CHOICE, unsafe for a claim about which error: log entry 19
(and 9 for an address named twice). -/
def loadImage (memSize : Nat) : List (Nat × ImageItem) → Memory → Except BootError Memory
  | [], m => .ok m
  | (a, x) :: rest, m =>
    if a < memSize then x.cell.bind fun c => loadImage memSize rest (m.write a c)
    else .error (.imageOutOfRange a)

/-- The state of a new machine with the given memory (R45, R190). -/
def State.fresh (c : Config) (m : Memory) : State where
  regs := List.replicate c.nRegs .unset
  pc := 0
  flag := false
  mem := m
  run := .running
  out := []
  memSize := c.memSize
  spIndex := c.spIndex
  input := []

/-- `Reset(N, M, SP_INDEX, image)` of R190. R190 tests the parameters first; that this comes before the loader's own
check of the records too is a DESIGN CHOICE, unsafe for a claim about which error: log entry 19. -/
def State.boot (c : Config) (image : List (Nat × ImageItem)) : Except BootError State :=
  if c.Legal then (loadImage c.memSize image []).map (State.fresh c) else .error .configuration

end Sys2Proof.Machine
end

