-- ==== Sys2Proof/Safety.lean ====
section
/-! DEFINITION. The words that claims use: a run without a fatal error, ending in a given fatal error, and the
invariants that every step keeps. -/

namespace Sys2Proof

/-- The instructions that set `pc` themselves (spec/10_state.md R33). -/
def Instr.WritesPc : Instr → Prop
  | .call _ | .ret | .jump _ => True
  | .add .. | .mul .. | .increment _ | .decrement _ | .load .. | .move .. | .push _ | .pop _ | .testEquals ..
  | .echo _ | .input _ | .halt => False

/-- The instructions that write the flag (R34). -/
def Instr.WritesFlag : Instr → Prop
  | .testEquals .. | .input _ => True
  | .add .. | .mul .. | .increment _ | .decrement _ | .load .. | .move .. | .push _ | .pop _ | .call _ | .ret
  | .jump _ | .echo _ | .halt => False

/-- The one instruction that calls `Write` (spec/00_scope.md R18). -/
def Instr.IsEcho : Instr → Prop
  | .echo _ => True
  | .add .. | .mul .. | .increment _ | .decrement _ | .load .. | .move .. | .push _ | .pop _ | .call _ | .ret
  | .jump _ | .testEquals .. | .input _ | .halt => False

/-- The one instruction that calls `ReadLine` (spec/00_scope.md R18). -/
def Instr.IsInput : Instr → Prop
  | .input _ => True
  | .add .. | .mul .. | .increment _ | .decrement _ | .load .. | .move .. | .push _ | .pop _ | .call _ | .ret
  | .jump _ | .testEquals .. | .echo _ | .halt => False

end Sys2Proof

namespace Sys2Proof.Machine

/-- The run has not ended in a fatal error (spec/60_exceptions.md R161: a claim takes this as its premise). -/
abbrev State.Unfaulted (s : State) : Prop := ∀ e, s.run ≠ .faulted e

/-- Executing `i` ends the run in the fatal error `e` (R160). -/
def Raises (i : Instr) (s : State) (e : FatalError) : Prop :=
  ∃ t, exec i s = .next t ∧ t.run = .faulted e

/-- The cell holds no instruction record. -/
def Cell.isData : Cell → Bool
  | .instr _ => false
  | .unset => true
  | .int _ => true
  | .text _ => true

/-- The cell holds no instruction record that the construction check refuses. -/
def Cell.wf : Cell → Bool
  | .instr i => i.wf
  | .unset => true
  | .int _ => true
  | .text _ => true

/-- What a cell reads as through the accessor (R56): a never-written cell reads as zero. -/
def Cell.lazyZero : Cell → Cell
  | .unset => .int 0
  | .int n => .int n
  | .text t => .text t
  | .instr i => .instr i

/-- R13, R25: no register holds an instruction record. -/
abbrev State.RegsHoldData (s : State) : Prop := ∀ c ∈ s.regs, c.isData = true

/-- R50: memory is in canonical form and lists no address outside `[0, M)`. -/
abbrev State.MemInBounds (s : State) : Prop := s.mem.wf ∧ ∀ e ∈ s.mem, e.1 < s.memSize

/-- R92: every record in memory is one that the construction check lets exist. -/
abbrev State.RecordsWellFormed (s : State) : Prop := ∀ e ∈ s.mem, e.2.wf = true

/-- R30, R32: `pc` is not negative, or it is the wrapped value that the next fetch rejects. -/
abbrev State.PcNotNegative (s : State) : Prop := 0 ≤ s.pc.toInt ∨ s.pc.toInt = -2 ^ 31

/-- The configuration of a state (R9). -/
def State.config (s : State) : Config := { nRegs := s.regs.length, memSize := s.memSize, spIndex := s.spIndex }

/-- The invariant of the machine. -/
structure State.Inv (s : State) : Prop where
  config : s.config.Legal
  regs : s.RegsHoldData
  mem : s.MemInBounds
  records : s.RecordsWellFormed
  pc : s.PcNotNegative

end Sys2Proof.Machine
end

