-- ==== Sys2Proof/Certificates/Slice0/Obligations.lean ====
section
/-! DEFINITION. The statements for the provers, and the few words they use beside those of Sys2Proof/Safety.lean.
Each docstring names the rule of the spec that the statement formalises. -/

namespace Sys2Proof.Machine

/-! ### Words the statements use, written from the rules and not from the model's operations -/

/-- The mathematical integer `z` reduced modulo `2^32` into `Int32` (spec/00_scope.md R12). -/
def wrap (z : Int) : Word := BitVec.ofInt 32 z

/-- A nonempty string of ASCII digits. -/
def IsDigits (ds : Text) : Prop := ds ≠ [] ∧ ∀ c ∈ ds, 48 ≤ c.toNat ∧ c.toNat ≤ 57

/-- The decimal value of a string of digits. -/
def digitsValue (ds : Text) : Nat := ds.foldl (fun v c => 10 * v + (c.toNat - 48)) 0

/-- `t` is `Decimal(z)` of spec/44_io_and_halt.md R150: an optional `-`, then the digits of `|z|` with no leading zero. -/
def IsDecimal (z : Int) (t : Text) : Prop :=
  ∃ ds, t = (if z < 0 then ['-'] else []) ++ ds ∧ IsDigits ds ∧ digitsValue ds = z.natAbs ∧
    (ds.head? = some '0' → ds = ['0'])

/-- `t` matches `[+-]?[0-9]+` and has the decimal value `z` (spec/44_io_and_halt.md R151). -/
def IsIntegerLine (t : Text) (z : Int) : Prop :=
  ∃ sign ds, (sign = [] ∨ sign = ['+'] ∨ sign = ['-']) ∧ t = sign ++ ds ∧ IsDigits ds ∧
    z = if sign = ['-'] then -(digitsValue ds : Int) else digitsValue ds

/-- The value `move` copies and the state after its source operand has been read (spec/41_data_movement.md R121). -/
def SourceGives (src : MoveSrc) (s : State) (v : Cell) (s1 : State) : Prop :=
  match src with
  | .num n => v = .int n ∧ s1 = s
  | .reg d => resolve d s = .ok v s1

/-- The descriptor `d` names a cell of `s` that can be read, and the cell is `c`: register `idx(d)`, or the cell of
memory at its base register's integer plus `off(d)` (spec/30_encoding.md R87, spec/20_memory.md R54). -/
def NamesCell (d : Desc) (s : State) (c : Cell) : Prop :=
  (d.ind = false ∧ s.regs[d.idx]? = some c) ∨
  (d.ind = true ∧ ∃ b, s.regs[d.idx]? = some (.int b) ∧ s.InMem (b + d.off) ∧ s.cellAt (b + d.off) = c)

/-- The value of `move`'s source operand, where the operand can be read (spec/41_data_movement.md R121). -/
def SourceReads (src : MoveSrc) (s : State) (v : Cell) : Prop :=
  match src with
  | .num n => v = .int n
  | .reg d => ∃ c, NamesCell d s c ∧ v = c.lazyZero

/-- `s` once the direct descriptor `d` has been read: a never-written register holds zero (spec/20_memory.md R56); an
index outside the file changes nothing. -/
def afterDirectRead (d : Desc) (s : State) : State := { s with regs := s.regs.modify d.idx Cell.lazyZero }

/-- `s` once the descriptor `d` has been read, for either mode (spec/20_memory.md R55, R56). -/
def afterRead (d : Desc) (s : State) : State :=
  if d.ind then
    match s.regs[d.idx]? with
    | some (.int b) => if s.InMem (b + d.off) ∧ s.cellAt (b + d.off) = .unset then s.setCell (b + d.off) (.int 0) else s
    | _ => s
  else afterDirectRead d s

/-- `s` once two direct descriptors have been read in order; a first one outside the file ends the instruction before
the second is read (spec/60_exceptions.md R168). -/
def afterTwoReads (d e : Desc) (s : State) : State :=
  if d.idx < s.nRegs then afterDirectRead e (afterDirectRead d s) else s

/-- `s` once the stack pointer, if it is an integer, has moved by `step` (spec/20_memory.md R60, R61). -/
def afterSpMove (step : Int) (s : State) : State :=
  match s.regs[s.spIndex]? with
  | some (.int sp) => { s with regs := s.regs.set s.spIndex (.int (wrap (sp.toInt + step))) }
  | _ => s

/-- `s` once `call` has pushed its own address, if the push succeeds (spec/20_memory.md R60). -/
def afterCallPush (s : State) : State :=
  match s.regs[s.spIndex]? with
  | some (.int sp) => if s.InMem sp then afterSpMove (-1) (s.setCell sp (.int s.pc)) else s
  | _ => s

/-- What an instruction that ends in a fatal error has written before it, from the order of its rule's pseudocode
(spec/60_exceptions.md R161, R168; log entry 16). `input` has taken an answer (log entry 5). -/
def writtenBeforeError : Instr → State → State
  | .add _ a b, s | .mul _ a b, s | .testEquals a b, s => afterTwoReads a b s
  | .move _ (.reg d), s => afterRead d s
  | .push r, s => afterDirectRead r s
  | .pop _, s | .ret, s => afterSpMove 1 s
  | .call _, s => afterCallPush s
  | .input _, s => { s with input := s.input.tail }
  | .move _ (.num _), s | .increment _, s | .decrement _, s | .load _ _, s | .jump _, s | .echo _, s | .halt, s => s

/-- The rule of `add` and `mul` (spec/40_arithmetic.md R110, R111) for an instruction `i` that computes `f`: the errors
in the order in which they are checked, then the result and all that stays unchanged. -/
def BinaryRule (i : Desc → Desc → Desc → Instr) (site1 site2 : Site) (f : Int → Int → Int) : Prop :=
  ∀ (s : State) (rd rs1 rs2 : Desc), rd.ind = false → rs1.ind = false → rs2.ind = false →
    (s.nRegs ≤ rs1.idx → Raises (i rd rs1 rs2) s (.registerOutOfRange rs1.idx)) ∧
    (rs1.idx < s.nRegs → s.nRegs ≤ rs2.idx → Raises (i rd rs1 rs2) s (.registerOutOfRange rs2.idx)) ∧
    ∀ va vb, s.regs[rs1.idx]? = some va → s.regs[rs2.idx]? = some vb →
      (∀ x, va = .text x → Raises (i rd rs1 rs2) s (.typeMismatch site1 .text)) ∧
      (∀ na x, va.lazyZero = .int na → vb = .text x → Raises (i rd rs1 rs2) s (.typeMismatch site2 .text)) ∧
      ∀ na nb, va.lazyZero = .int na → vb.lazyZero = .int nb →
        (s.nRegs ≤ rd.idx → Raises (i rd rs1 rs2) s (.registerOutOfRange rd.idx)) ∧
        (rd.idx < s.nRegs → ∃ t, exec (i rd rs1 rs2) s = .next t ∧ t = { s with regs := t.regs } ∧
          ∀ k, t.regs[k]? =
            if k = rd.idx then some (.int (wrap (f na.toInt nb.toInt)))
            else if k = rs1.idx ∨ k = rs2.idx then s.regs[k]?.map Cell.lazyZero
            else s.regs[k]?)

/-- The rule of `increment` and `decrement` (spec/40_arithmetic.md R112, R113) for an instruction `i` that computes
`f`. -/
def UnaryRule (i : Desc → Instr) (site : Site) (f : Int → Int) : Prop :=
  ∀ (s : State) (r : Desc), r.ind = false →
    (s.nRegs ≤ r.idx → Raises (i r) s (.registerOutOfRange r.idx)) ∧
    (∀ x, s.regs[r.idx]? = some (.text x) → Raises (i r) s (.typeMismatch site .text)) ∧
    ∀ v n, s.regs[r.idx]? = some v → v.lazyZero = .int n →
      ∃ t, exec (i r) s = .next t ∧ t = { s with regs := t.regs } ∧
        ∀ k, t.regs[k]? = if k = r.idx then some (.int (wrap (f n.toInt))) else s.regs[k]?

end Sys2Proof.Machine

namespace Sys2Proof

/-- What a position of a format takes (spec/30_encoding.md R82): `R`, `D`, `N`, or `D` or `N`. -/
inductive Pos where
  | r | d | n | dn
  deriving DecidableEq, Repr

/-- The positions of each opcode's format (R82, R94). -/
def Opcode.positions : Opcode → List Pos
  | .add | .mul => [.r, .r, .r]
  | .increment | .decrement | .push | .pop => [.r]
  | .load => [.r, .n]
  | .move => [.d, .dn]
  | .call | .jump | .input => [.n]
  | .ret | .halt => []
  | .testEquals => [.r, .r]
  | .echo => [.d]

/-- The reason, if any, for which the argument at position `p` is rejected (the loop body of R92). -/
def argError (p : Nat) : Pos → Arg → Option ConstructionReason
  | .r, .reg d => if d.ind then some (.argumentKind p) else none
  | .d, .reg _ => none
  | .dn, .reg _ => none
  | .n, .reg _ => some (.argumentKind p)
  | .n, .num z => if -2 ^ 31 ≤ z ∧ z ≤ 2 ^ 31 - 1 then none else some (.literalRange p)
  | .dn, .num z => if -2 ^ 31 ≤ z ∧ z ≤ 2 ^ 31 - 1 then none else some (.literalRange p)
  | .r, .num _ => some (.argumentKind p)
  | .d, .num _ => some (.argumentKind p)
  | _, .txt _ => some (.argumentKind p)

/-- The first rejected position, counting from `p` (the loop of R92). -/
def firstArgError (p : Nat) : List Pos → List Arg → Option ConstructionReason
  | k :: ks, a :: as => (argError p k a).or (firstArgError (p + 1) ks as)
  | [], _ => none
  | _ :: _, [] => none

end Sys2Proof

open Sys2Proof Sys2Proof.Machine

/-! ### Encoding -/

/-- R88: the encoder's formula, its range, and that the codec's fields read it back. -/
def Obligations.DescriptorEncoderRoundTrip : Prop :=
  ∀ (i : Nat) (o : Int) (b : Bool), i ≤ 255 → -32768 ≤ o → o ≤ 32767 →
    (Desc.enc i o b).toNat = i ||| ((o % 65536).toNat <<< 8) ||| (if b then 1 <<< 24 else 0) ∧
    (Desc.enc i o b).toNat ≤ 0x01FFFFFF ∧
    (Desc.enc i o b).idx = i ∧ (Desc.enc i o b).off.toInt = o ∧ (Desc.enc i o b).ind = b

/-- R84, R85, R86: the three fields as arithmetic on the bits of the descriptor, with the bounds of the first two. -/
def Obligations.DescriptorFieldsReadTheirBits : Prop :=
  ∀ d : Desc,
    d.idx = d.toNat % 256 ∧ d.idx ≤ 255 ∧
    d.off.toInt = (let f := d.toNat / 256 % 65536; if f < 0x8000 then (f : Int) else (f : Int) - 0x10000) ∧
    (-32768 ≤ d.off.toInt ∧ d.off.toInt ≤ 32767) ∧
    (d.ind = true ↔ d.toNat / 2 ^ 24 % 2 = 1)

/-- R87: bits 31:25 have no effect on any field, and the offset field of a direct descriptor has none on a read or a
write through it. -/
def Obligations.UnusedDescriptorBitsHaveNoEffect : Prop :=
  (∀ d e : Desc, d.toNat % 2 ^ 25 = e.toNat % 2 ^ 25 → d.idx = e.idx ∧ d.off = e.off ∧ d.ind = e.ind) ∧
  ∀ d e : Desc, d.ind = false → e.ind = false → d.idx = e.idx →
    ∀ s, resolve d s = resolve e s ∧ ∀ site c, assign site d c s = assign site e c s

/-- Every instruction that the construction check lets exist is what its record decodes to. -/
def Obligations.DecodeOfEncodeIsIdentity : Prop :=
  ∀ i : Instr, i.wf = true → decode (encode i) = .ok i

/-- A record that decodes is the record of what it decodes to, and that is well formed. -/
def Obligations.EncodeOfDecodeIsIdentity : Prop :=
  ∀ (r : RawInstr) (i : Instr), decode r = .ok i → encode i = r ∧ i.wf = true

/-- R92: the construction check is its pseudocode: the name, then the arity, then the positions from left to right. -/
def Obligations.ConstructionCheckFollowsItsOrder : Prop :=
  ∀ r : RawInstr,
    ((∀ op : Opcode, op.name ≠ r.name) → decode r = .error ⟨r.name, .unknownOpcode⟩) ∧
    ∀ op : Opcode, op.name = r.name →
      (r.args.length ≠ op.positions.length → decode r = .error ⟨r.name, .arity⟩) ∧
      (r.args.length = op.positions.length →
        (∀ e, firstArgError 1 op.positions r.args = some e → decode r = .error ⟨r.name, e⟩) ∧
        (firstArgError 1 op.positions r.args = none →
          ∃ i, decode r = .ok i ∧ i.opcode = op ∧ i.args = r.args))

/-- R91: no record with a text argument is built, and no built instruction has one. -/
def Obligations.TextArgumentsAreNeverBuilt : Prop :=
  (∀ (r : RawInstr) (x : Text), Arg.txt x ∈ r.args → ∃ e, decode r = .error e) ∧
  ∀ (i : Instr) (x : Text), Arg.txt x ∉ (encode i).args

/-- Records written out from the spec's encodings (R99 and the programs of spec/95_test_vectors.md) decode to the
instructions they stand for. -/
def Obligations.SpecRecordsDecode : Prop :=
  decode ⟨"add", [.reg 0x00000000, .reg 0x00000001, .reg 0x00000002]⟩ = .ok (.add 0 1 2) ∧
  decode ⟨"move", [.reg 0x01000201, .num 7]⟩ = .ok (.move (Desc.enc 1 2 true) (.num 7)) ∧
  decode ⟨"push", [.reg 0x00000002]⟩ = .ok (.push (Desc.enc 2 0 false)) ∧
  decode ⟨"jump", [.num 7]⟩ = .ok (.jump 7) ∧
  decode ⟨"echo", [.reg 0x01000001]⟩ = .ok (.echo (Desc.enc 1 0 true)) ∧
  decode ⟨"halt", []⟩ = .ok .halt

/-! ### Construction and reset -/

/-- What a machine that the loader has filled holds before its first step (from R45). That the last of several items
for one address stands is the MODEL'S CHOICE (log entry 9): the spec is silent on it. -/
def Obligations.NewMachineHoldsResetValues : Prop :=
  ∀ (c : Config) (image : List (Nat × ImageItem)) (s : State), State.boot c image = .ok s →
    s.regs = List.replicate c.nRegs .unset ∧ s.pc = 0 ∧ s.flag = false ∧ s.run = .running ∧ s.out = [] ∧
    s.memSize = c.memSize ∧ s.spIndex = c.spIndex ∧
    (∀ a, (∀ x, (a, x) ∉ image) → s.mem.read a = .unset) ∧
    ∀ a x before after, image = before ++ (a, x) :: after → (∀ y, (a, y) ∉ after) → x.cell = .ok (s.mem.read a)

/-- The reset state is the new machine of the reference configuration with an empty image. `N = 16` and
`SP_INDEX = 15` are R9's defaults; `M = 100` is the MODEL'S CHOICE (log entry 2). -/
def Obligations.ResetIsTheEmptyReferenceMachine : Prop :=
  State.boot ⟨16, 100, 15⟩ [] = .ok State.reset

/-- Exactly the configurations outside the bounds are refused as configurations, and every other one makes a machine
(from R10). That the configuration error is the one reported where the image has an error as well is the MODEL'S CHOICE
(log entry 19). -/
def Obligations.ConfigurationsOutOfBoundsAreRefused : Prop :=
  ∀ c : Config,
    ((c.nRegs < 16 ∨ c.nRegs ≤ c.spIndex ∨ c.memSize = 0 ∨ 256 < c.nRegs ∨ 2 ^ 31 - 1 < c.memSize) →
      ∀ image, State.boot c image = .error .configuration) ∧
    (¬(c.nRegs < 16 ∨ c.nRegs ≤ c.spIndex ∨ c.memSize = 0 ∨ 256 < c.nRegs ∨ 2 ^ 31 - 1 < c.memSize) →
      (∃ s, State.boot c [] = .ok s) ∧ ∀ image, State.boot c image ≠ .error .configuration)

/-- Whatever the loader fills memory with, the new machine meets the invariant: its records are built ones (R17), its
memory is in canonical form and in bounds. -/
def Obligations.NewMachineMeetsInvariant : Prop :=
  ∀ (c : Config) (image : List (Nat × ImageItem)) (s : State), State.boot c image = .ok s → s.Inv

/-! ### The fetch-execute loop -/

/-- A step runs the record that stands at `pc` (R40): it is the execution of that record, and then `pc` goes up by one
unless the run has ended. -/
def Obligations.StepRunsTheFetchedInstruction : Prop :=
  ∀ (s : State) (i : Instr), s.run = .running → s.InMem s.pc → s.cellAt s.pc = .instr i →
    (∀ t, exec i s = .next t → t.run = .running → step s = .next { t with pc := t.pc + 1 }) ∧
    (∀ t, exec i s = .next t → t.run ≠ .running → step s = .next t) ∧
    (∀ f, exec i s = .fault f → step s = .fault f)

/-- The two errors of the fetch, in their order (from R41). That every field but `run` is as it was rests on R160 and
R161 and is log entry 16: U21 lets a claim about a program read only `run`. -/
def Obligations.FetchErrors : Prop :=
  ∀ s : State, s.run = .running →
    (¬ (0 ≤ s.pc.toInt ∧ s.pc.toInt < s.memSize) →
      step s = .next { s with run := .faulted (.memoryOutOfRange s.pc) }) ∧
    (0 ≤ s.pc.toInt → s.pc.toInt < s.memSize → (∀ i, s.cellAt s.pc ≠ .instr i) →
      step s = .next { s with run := .faulted (.notAnInstruction s.pc (s.cellAt s.pc).kind) })

/-- R36: no step leaves `Halted` or `Faulted`. That the step then answers a fault of the model is log entry 4. -/
def Obligations.EndedRunTakesNoStep : Prop :=
  ∀ s : State, s.run ≠ .running → ∃ f, step s = .fault f

/-! ### The storage accessor -/

/-- R54: the effective address, and its two errors; computing it changes nothing. -/
def Obligations.EffectiveAddressRule : Prop :=
  ∀ (s : State) (d : Desc),
    (s.nRegs ≤ d.idx → ea d s = .err (.registerOutOfRange d.idx) s) ∧
    (∀ c, s.regs[d.idx]? = some c → (∀ n, c ≠ .int n) → ea d s = .err (.typeMismatch .ea c.kind) s) ∧
    ∀ b, s.regs[d.idx]? = some (.int b) → ea d s = .ok (wrap (b.toInt + d.off.toInt)) s

/-- R55: a read through a descriptor: the value, the lazy zero it leaves in the cell read, and that it changes nothing
else; it never gives `Unset`. -/
def Obligations.ResolveRule : Prop :=
  ∀ (s : State) (d : Desc),
    (d.ind = false → s.nRegs ≤ d.idx → resolve d s = .err (.registerOutOfRange d.idx) s) ∧
    (d.ind = false → ∀ c, s.regs[d.idx]? = some c →
      ∃ t, resolve d s = .ok c.lazyZero t ∧ t = { s with regs := t.regs } ∧
        ∀ k, t.regs[k]? = if k = d.idx then some c.lazyZero else s.regs[k]?) ∧
    (d.ind = true → ∀ e t, ea d s = .err e t → resolve d s = .err e t) ∧
    (d.ind = true → ∀ a, ea d s = .ok a s →
      (¬ s.InMem a → resolve d s = .err (.memoryOutOfRange a) s) ∧
      (s.InMem a → ∃ t, resolve d s = .ok (s.cellAt a).lazyZero t ∧ t = { s with mem := t.mem } ∧
        (s.cellAt a ≠ .unset → t = s) ∧
        ∀ b, t.mem.read b = if b = a.toNat then (s.cellAt a).lazyZero else s.mem.read b)) ∧
    ∀ c t, resolve d s = .ok c t → c ≠ .unset

/-- R67: a second read of the same cell through the same descriptor reads the same value and writes nothing. -/
def Obligations.ResolveIsIdempotent : Prop :=
  ∀ (s t : State) (d : Desc) (c : Cell), resolve d s = .ok c t → resolve d t = .ok c t

/-! ### Instructions: errors in order, result, and what stays unchanged -/

/-- R110. -/
def Obligations.AddRule : Prop := BinaryRule .add .addSrc1 .addSrc2 (· + ·)

/-- R111. -/
def Obligations.MulRule : Prop := BinaryRule .mul .mulSrc1 .mulSrc2 (· * ·)

/-- R112. -/
def Obligations.IncrementRule : Prop := UnaryRule .increment .incrementSrc (· + 1)

/-- R113. -/
def Obligations.DecrementRule : Prop := UnaryRule .decrement .decrementSrc (· - 1)

/-- R120. -/
def Obligations.LoadRule : Prop :=
  ∀ (s : State) (rd : Desc) (addr : Word), rd.ind = false →
    (¬ s.InMem addr → Raises (.load rd addr) s (.memoryOutOfRange addr)) ∧
    (s.InMem addr → s.nRegs ≤ rd.idx → Raises (.load rd addr) s (.registerOutOfRange rd.idx)) ∧
    (s.InMem addr → rd.idx < s.nRegs → ∀ j, s.cellAt addr = .instr j →
      Raises (.load rd addr) s (.typeMismatch .loadDst .instr)) ∧
    (s.InMem addr → rd.idx < s.nRegs → (∀ j, s.cellAt addr ≠ .instr j) →
      ∃ t, exec (.load rd addr) s = .next t ∧ t = { s with regs := t.regs } ∧
        ∀ k, t.regs[k]? = if k = rd.idx then some (s.cellAt addr) else s.regs[k]?)

/-- R121. The destination's address is computed in the state after the source operand has been read. -/
def Obligations.MoveRule : Prop :=
  ∀ (s : State) (dst : Desc) (src : MoveSrc),
    (∀ d e s1, src = .reg d → resolve d s = .err e s1 → Raises (.move dst src) s e) ∧
    ∀ v s1, SourceGives src s v s1 →
      (dst.ind = false → s1.nRegs ≤ dst.idx → Raises (.move dst src) s (.registerOutOfRange dst.idx)) ∧
      (dst.ind = false → dst.idx < s1.nRegs → ∀ j, v = .instr j →
        Raises (.move dst src) s (.typeMismatch .moveDst .instr)) ∧
      (dst.ind = false → dst.idx < s1.nRegs → (∀ j, v ≠ .instr j) →
        ∃ t, exec (.move dst src) s = .next t ∧ t = { s1 with regs := t.regs } ∧
          ∀ k, t.regs[k]? = if k = dst.idx then some v else s1.regs[k]?) ∧
      (dst.ind = true → ∀ e s2, ea dst s1 = .err e s2 → Raises (.move dst src) s e) ∧
      (dst.ind = true → ∀ a, ea dst s1 = .ok a s1 →
        (¬ s1.InMem a → Raises (.move dst src) s (.memoryOutOfRange a)) ∧
        (s1.InMem a → ∃ t, exec (.move dst src) s = .next t ∧ t = { s1 with mem := t.mem } ∧
          ∀ b, t.mem.read b = if b = a.toNat then v else s1.mem.read b))

/-- Where `move` completes, on the state and the operands alone: a readable source, and a destination that is a register
of the file (no record goes there) or a cell in range whose base register holds an integer once the source has been
read: it held one before, or it is the never-written register that the source reads, which then holds zero (from R121,
its corner case `move [r1], r1`). -/
def Obligations.MoveCompletesOnUsableOperands : Prop :=
  ∀ (s : State) (dst : Desc) (src : MoveSrc) (v : Cell), SourceReads src s v →
    (dst.ind = false → dst.idx < s.nRegs → (∀ j, v ≠ .instr j) →
      ∃ t, exec (.move dst src) s = .next t ∧ t = { s with regs := t.regs, mem := t.mem } ∧
        t.regs[dst.idx]? = some v) ∧
    (dst.ind = true → ∀ b,
      (s.regs[dst.idx]? = some (.int b) ∨
        s.regs[dst.idx]? = some .unset ∧ b = 0 ∧ ∃ d, src = .reg d ∧ d.ind = false ∧ d.idx = dst.idx) →
      s.InMem (b + dst.off) →
      ∃ t, exec (.move dst src) s = .next t ∧ t = { s with regs := t.regs, mem := t.mem } ∧
        t.mem.read (b + dst.off).toNat = v)

/-- R130. `c` is the stack pointer's cell once `r` has been read: reading `r` zeroes it where `r` is the stack pointer
itself and was never written. -/
def Obligations.PushRule : Prop :=
  ∀ (s : State) (r : Desc), r.ind = false →
    (s.nRegs ≤ r.idx → Raises (.push r) s (.registerOutOfRange r.idx)) ∧
    ∀ v c0, s.regs[r.idx]? = some v → s.regs[s.spIndex]? = some c0 →
      ∀ c, c = (if r.idx = s.spIndex then c0.lazyZero else c0) →
        ((∀ n, c ≠ .int n) → Raises (.push r) s (.typeMismatch .sp c.kind)) ∧
        ∀ sp, c = .int sp →
          (¬ s.InMem sp → Raises (.push r) s (.memoryOutOfRange sp)) ∧
          (s.InMem sp → ∃ t, exec (.push r) s = .next t ∧ t = { s with regs := t.regs, mem := t.mem } ∧
            (∀ k, t.regs[k]? =
              if k = s.spIndex then some (.int (wrap (sp.toInt - 1)))
              else if k = r.idx then some v.lazyZero else s.regs[k]?) ∧
            ∀ b, t.mem.read b = if b = sp.toNat then v.lazyZero else s.mem.read b)

/-- R131. -/
def Obligations.PopRule : Prop :=
  ∀ (s : State) (r : Desc), r.ind = false → ∀ c, s.regs[s.spIndex]? = some c →
    ((∀ n, c ≠ .int n) → Raises (.pop r) s (.typeMismatch .sp c.kind)) ∧
    ∀ sp a, c = .int sp → a = wrap (sp.toInt + 1) →
      (¬ s.InMem a → Raises (.pop r) s (.memoryOutOfRange a)) ∧
      (s.InMem a → s.nRegs ≤ r.idx → Raises (.pop r) s (.registerOutOfRange r.idx)) ∧
      (s.InMem a → r.idx < s.nRegs → ∀ j, s.cellAt a = .instr j →
        Raises (.pop r) s (.typeMismatch .popDst .instr)) ∧
      (s.InMem a → r.idx < s.nRegs → (∀ j, s.cellAt a ≠ .instr j) →
        ∃ t, exec (.pop r) s = .next t ∧ t = { s with regs := t.regs } ∧
          ∀ k, t.regs[k]? =
            if k = r.idx then some (s.cellAt a) else if k = s.spIndex then some (.int a) else s.regs[k]?)

/-- R132, with decision D34 for the target `-2^31`, which wraps (spec/93_implementation_defined.md U24). -/
def Obligations.CallRule : Prop :=
  ∀ (s : State) (target : Word) (c : Cell), s.regs[s.spIndex]? = some c →
    ((∀ n, c ≠ .int n) → Raises (.call target) s (.typeMismatch .sp c.kind)) ∧
    ∀ sp, c = .int sp →
      (¬ s.InMem sp → Raises (.call target) s (.memoryOutOfRange sp)) ∧
      (s.InMem sp → target.toInt ≤ 0 → target.toInt ≠ -2 ^ 31 →
        Raises (.call target) s (.negativePC (wrap (target.toInt - 1)))) ∧
      (s.InMem sp → (1 ≤ target.toInt ∨ target.toInt = -2 ^ 31) →
        ∃ t, exec (.call target) s = .next t ∧
          t = { s with regs := t.regs, mem := t.mem, pc := wrap (target.toInt - 1) } ∧
          (∀ k, t.regs[k]? = if k = s.spIndex then some (.int (wrap (sp.toInt - 1))) else s.regs[k]?) ∧
          ∀ b, t.mem.read b = if b = sp.toNat then .int s.pc else s.mem.read b)

/-- R133: the errors in their order, the effect, and the next fetch. -/
def Obligations.RetRule : Prop :=
  ∀ (s : State) (c : Cell), s.regs[s.spIndex]? = some c →
    ((∀ n, c ≠ .int n) → Raises .ret s (.typeMismatch .sp c.kind)) ∧
    ∀ sp a, c = .int sp → a = wrap (sp.toInt + 1) →
      (¬ s.InMem a → Raises .ret s (.memoryOutOfRange a)) ∧
      (s.InMem a → (∀ n, s.cellAt a ≠ .int n) → Raises .ret s (.typeMismatch .ret (s.cellAt a).kind)) ∧
      (s.InMem a → ∀ v, s.cellAt a = .int v → v.toInt < 0 → Raises .ret s (.negativePC v)) ∧
      (s.InMem a → ∀ v, s.cellAt a = .int v → 0 ≤ v.toInt →
        ∃ t, exec .ret s = .next t ∧ t = { s with regs := t.regs, pc := v } ∧
          (∀ k, t.regs[k]? = if k = s.spIndex then some (.int a) else s.regs[k]?) ∧
          (s.run = .running → s.InMem s.pc → s.cellAt s.pc = .instr .ret → step s = .next { t with pc := v + 1 }))

/-- When a jump faults, its effect, the next fetch, and the fetch after the target `-2^31` (from R140). That the last
of these leaves every field but `run` as it was is log entry 16. -/
def Obligations.JumpRule : Prop :=
  ∀ (s : State) (target : Word),
    (target.toInt ≤ 0 → target.toInt ≠ -2 ^ 31 →
      Raises (.jump target) s (.negativePC (wrap (target.toInt - 1)))) ∧
    ((1 ≤ target.toInt ∨ target.toInt = -2 ^ 31) →
      exec (.jump target) s = .next { s with pc := wrap (target.toInt - 1) } ∧
      (s.run = .running → s.InMem s.pc → s.cellAt s.pc = .instr (.jump target) →
        step s = .next { s with pc := target })) ∧
    (target.toInt = -2 ^ 31 → s.run = .running →
      step { s with pc := target } = .next { s with pc := target, run := .faulted (.memoryOutOfRange target) })

/-- R141. The comparison is of the values read, that is after the lazy zero. -/
def Obligations.TestEqualsRule : Prop :=
  ∀ (s : State) (ra rb : Desc), ra.ind = false → rb.ind = false →
    (s.nRegs ≤ ra.idx → Raises (.testEquals ra rb) s (.registerOutOfRange ra.idx)) ∧
    (ra.idx < s.nRegs → s.nRegs ≤ rb.idx → Raises (.testEquals ra rb) s (.registerOutOfRange rb.idx)) ∧
    ∀ va vb, s.regs[ra.idx]? = some va → s.regs[rb.idx]? = some vb →
      ∃ t, exec (.testEquals ra rb) s = .next t ∧ t = { s with regs := t.regs, flag := t.flag } ∧
        (t.flag = true ↔ va.lazyZero = vb.lazyZero) ∧
        ∀ k, t.regs[k]? = if k = ra.idx ∨ k = rb.idx then s.regs[k]?.map Cell.lazyZero else s.regs[k]?

/-- R150. -/
def Obligations.EchoRule : Prop :=
  ∀ (s : State) (d : Desc),
    (∀ e s1, resolve d s = .err e s1 → Raises (.echo d) s e) ∧
    ∀ v s1, resolve d s = .ok v s1 →
      (∀ n, v = .int n → ∃ x, IsDecimal n.toInt x ∧ exec (.echo d) s = .next { s1 with out := s1.out ++ x }) ∧
      (∀ x, v = .text x → exec (.echo d) s = .next { s1 with out := s1.out ++ x }) ∧
      (∀ j, v = .instr j → Raises (.echo d) s (.typeMismatch .echo .instr))

/-- Where `echo` completes, on the state and the operand alone: a readable cell that holds no record. Only the output
grows, but for the lazy zero in the cell read (from R150). -/
def Obligations.EchoCompletesOnReadableOperands : Prop :=
  ∀ (s : State) (d : Desc) (c : Cell), NamesCell d s c → (∀ j, c ≠ .instr j) →
    ∃ t x, exec (.echo d) s = .next t ∧ t = { s with regs := t.regs, mem := t.mem, out := s.out ++ x } ∧
      (∀ n, c.lazyZero = .int n → IsDecimal n.toInt x) ∧ (∀ y, c = .text y → x = y) ∧
      NamesCell d t c.lazyZero ∧
      (c ≠ .unset → t.regs = s.regs ∧ t.mem = s.mem) ∧
      (d.ind = true → t.regs = s.regs) ∧ (d.ind = false → t.mem = s.mem) ∧
      (∀ k, d.ind = false → k ≠ d.idx → t.regs[k]? = s.regs[k]?) ∧
      ∀ b a, d.ind = true → s.regs[d.idx]? = some (.int b) → a ≠ (b + d.off).toNat → t.mem.read a = s.mem.read a

/-- R151 and R153. The answers the host has given stand in `input`, oldest first (log entry 5). -/
def Obligations.InputRule : Prop :=
  ∀ (s : State) (addr : Word),
    (s.input = [] → exec (.input addr) s = .fault .awaitingInput) ∧
    ∀ r rest, s.input = r :: rest →
      ((r = .endOfInput ∨ r = .channelError) → Raises (.input addr) s .inputChannelFailure) ∧
      ∀ x, r = .line x →
        ((¬ ∃ n : Word, IsIntegerLine x n.toInt) →
          exec (.input addr) s = .next { s with input := rest, flag := false }) ∧
        ∀ n : Word, IsIntegerLine x n.toInt →
          (¬ s.InMem addr → Raises (.input addr) s (.memoryOutOfRange addr)) ∧
          (s.InMem addr → ∃ t, exec (.input addr) s = .next t ∧
            t = { s with input := rest, flag := true, mem := t.mem } ∧
            ∀ b, t.mem.read b = if b = addr.toNat then .int n else s.mem.read b)

/-- R152: no state other than `run` changes, `pc` is left at the halt's own address by the step too, and a halted run
takes no further step. -/
def Obligations.HaltRule : Prop :=
  ∀ s : State, exec .halt s = .next { s with run := .halted } ∧
    (s.run = .running → s.InMem s.pc → s.cellAt s.pc = .instr .halt → step s = .next { s with run := .halted }) ∧
    (s.run = .halted → ∀ t, step s ≠ .next t)

/-! ### The whole machine -/

/-- The invariant holds at reset. The memory capacity there is the model's choice (log entry 2). -/
def Obligations.InvariantHoldsAtReset : Prop := State.reset.Inv

/-- Every step keeps the invariant: the configuration is legal, no register holds an instruction record, memory is in
canonical form and in bounds, every record in memory is one the construction check lets exist, and `pc` is not
negative but for the wrapped value that the next fetch rejects. -/
def Obligations.StepKeepsInvariant : Prop :=
  ∀ s t : State, s.Inv → step s = .next t → t.Inv

/-- The register count, the memory capacity and the stack-pointer index are fixed for the life of the machine
(R50, R9). -/
def Obligations.StepKeepsConfiguration : Prop :=
  ∀ s t : State, step s = .next t → t.config = s.config

/-- R34: only `testEquals` and `input` write the flag, and no instruction reads it: with another flag before, an
instruction does the same, and the two that write it leave the same flag. -/
def Obligations.FlagIsWrittenByTwoAndReadByNone : Prop :=
  (∀ (i : Instr) (s t : State), ¬ i.WritesFlag → exec i s = .next t → t.flag = s.flag) ∧
  (∀ (i : Instr) (s t : State) (b : Bool), exec i s = .next t →
    ∃ c, exec i { s with flag := b } = .next { t with flag := c } ∧
      (i.WritesFlag → (∀ e, t.run ≠ .faulted e) → c = t.flag)) ∧
  State.reset.flag = false

/-- R33: how each instruction leaves `pc`, and where the next fetch is. -/
def Obligations.NextFetchAddress : Prop :=
  ∀ (i : Instr) (s t : State), s.run = .running → s.InMem s.pc → s.cellAt s.pc = .instr i →
    exec i s = .next t → (∀ e, t.run ≠ .faulted e) →
      (¬ i.WritesPc → i ≠ .halt → t.pc = s.pc ∧ step s = .next { t with pc := s.pc + 1 }) ∧
      (∀ target, (i = .jump target ∨ i = .call target) →
        0 ≤ (target - 1).toInt ∧ t.pc = target - 1 ∧ step s = .next { t with pc := target }) ∧
      (i = .ret → ∃ sp v, s.regs[s.spIndex]? = some (.int sp) ∧ s.cellAt (sp + 1) = .int v ∧
        0 ≤ v.toInt ∧ t.pc = v ∧ step s = .next { t with pc := v + 1 }) ∧
      (i = .halt → t.pc = s.pc ∧ t.run = .halted ∧ step s = .next t)

/-- A transfer never reaches address 0: a `jump` or a `call` that does not fault leaves `pc` at another address
(R193). -/
def Obligations.TransfersNeverReachAddressZero : Prop :=
  ∀ (s t : State) (target : Word), (s.cellAt s.pc = .instr (.jump target) ∨ s.cellAt s.pc = .instr (.call target)) →
    step s = .next t → (∀ e, t.run ≠ .faulted e) → t.pc ≠ 0

/-- The output stream only grows, and only `echo` writes it (R18). -/
def Obligations.OutputOnlyGrowsByEcho : Prop :=
  (∀ s t : State, step s = .next t → ∃ x, t.out = s.out ++ x) ∧
  ∀ (i : Instr) (s t : State), ¬ i.IsEcho → exec i s = .next t → t.out = s.out

/-- Only `input` takes the host's answers, one at a time and the oldest first (R18). The queue is the model's form of
the channel (log entry 5). -/
def Obligations.AnswersAreTakenInOrderByInput : Prop :=
  ∀ (i : Instr) (s t : State), exec i s = .next t →
    (¬ i.IsInput → t.input = s.input) ∧ (i.IsInput → ∃ r, s.input = r :: t.input)

/-- No instruction writes `Unset` to memory: a cell that holds a value holds one after every step (R52). -/
def Obligations.WrittenMemoryStaysWritten : Prop :=
  ∀ (s t : State) (a : Nat), step s = .next t → s.mem.read a ≠ .unset → t.mem.read a ≠ .unset

/-- No step builds a new record: every instruction record in memory after it stood in memory before (R73). -/
def Obligations.StepBuildsNoNewRecord : Prop :=
  ∀ s t : State, s.RegsHoldData → step s = .next t →
    ∀ a i, t.mem.read a = .instr i → ∃ b, s.mem.read b = .instr i

/-- Every instruction answers a next state, but for `input` while the host has not answered (from R153). That no
answer waiting is an empty `input`, and no step the fault `awaitingInput`, is the MODEL'S CHOICE (log entry 5). -/
def Obligations.OnlyUnansweredInputWaits : Prop :=
  ∀ (i : Instr) (s : State),
    (∀ r, exec i s ≠ .refused r) ∧
    ∀ f, exec i s = .fault f ↔ (f = .awaitingInput ∧ s.input = [] ∧ i.IsInput)

/-- A running machine always takes a step, but for an `input` at `pc` that the host has not answered. That the
host's answers are the queue `input` is the MODEL'S CHOICE (log entry 5). -/
def Obligations.RunningMachineSteps : Prop :=
  ∀ s : State, s.run = .running → ((∀ a, s.cellAt s.pc ≠ .instr (.input a)) ∨ s.input ≠ []) → ∃ t, step s = .next t

/-- An instruction that ends the run in an error leaves `pc`, the flag and the output as they were (first clause), and
its state is the one before it with exactly the writes made before the error (second clause, for every instruction the
construction check lets exist); the other two say when two of these errors come and with what state. From R161: the
state after an error is kept for diagnosis (log entry 16), and U21 lets a claim about a program read only `run`. -/
def Obligations.ErrorKeepsPcAndEarlierWrites : Prop :=
  (∀ (i : Instr) (s t : State) (e : FatalError), s.run = .running → exec i s = .next t → t.run = .faulted e →
    t.pc = s.pc ∧ t.flag = s.flag ∧ t.out = s.out) ∧
  (∀ (i : Instr) (s t : State) (e : FatalError), i.wf = true → s.run = .running → exec i s = .next t →
    t.run = .faulted e → t = { writtenBeforeError i s with run := .faulted e }) ∧
  (∀ (s : State) (r : Desc) (sp : Word), s.regs[s.spIndex]? = some (.int sp) → ¬ s.InMem (sp + 1) →
    exec (.pop r) s = .next { s with
      regs := s.regs.set s.spIndex (.int (sp + 1)), run := .faulted (.memoryOutOfRange (sp + 1)) }) ∧
  ∀ (s : State) (target sp : Word), s.regs[s.spIndex]? = some (.int sp) → s.InMem sp → (target - 1).toInt < 0 →
    ∃ t, exec (.call target) s = .next t ∧ t.run = .faulted (.negativePC (target - 1)) ∧
      t.mem.read sp.toNat = .int s.pc ∧ t.regs[s.spIndex]? = some (.int (sp - 1))

/-- A push, and then a pop into a register other than the stack pointer, gives that register the pushed value and
restores the stack pointer (R62). -/
def Obligations.PushThenPopRestores : Prop :=
  ∀ (s : State) (r q : Desc) (v : Cell) (sp : Word), r.ind = false → q.ind = false →
    s.regs[r.idx]? = some v → (∀ j, v ≠ .instr j) → s.regs[s.spIndex]? = some (.int sp) → s.InMem sp →
    q.idx < s.nRegs → q.idx ≠ s.spIndex →
    ∃ t u, exec (.push r) s = .next t ∧ exec (.pop q) t = .next u ∧
      u.regs[q.idx]? = some v.lazyZero ∧ u.regs[s.spIndex]? = some (.int sp) ∧
      u.mem.read sp.toNat = v.lazyZero

/-- A call whose target holds a `ret` comes back to the instruction after the call, with the stack pointer restored
(the worked example W5, for every address, target and stack pointer). -/
def Obligations.CallThenRetReturns : Prop :=
  ∀ (s : State) (target sp : Word), s.run = .running →
    s.InMem s.pc → s.cellAt s.pc = .instr (.call target) →
    1 ≤ target.toInt → s.InMem target → s.cellAt target = .instr .ret →
    s.regs[s.spIndex]? = some (.int sp) → s.InMem sp → sp ≠ target →
    ∃ t u, step s = .next t ∧ t.pc = target ∧ step t = .next u ∧
      u = { s with pc := s.pc + 1, mem := u.mem } ∧
      ∀ b, u.mem.read b = if b = sp.toNat then .int s.pc else s.mem.read b

/-- A jump to its own address is an infinite loop, not an error (R44, R140): however many steps, the state is the same. -/
def Obligations.JumpToItselfHangs : Prop :=
  ∀ s : State, s.run = .running → s.InMem s.pc → s.pc ≠ 0 → s.cellAt s.pc = .instr (.jump s.pc) →
    ∀ k, Host.Core.run core k s = .next s

/-! ### Values -/

/-- R12: sums, differences and products are the mathematical ones reduced modulo `2^32` into `Int32`. -/
def Obligations.IntegerResultsWrap : Prop :=
  (∀ a b : Word, a + b = wrap (a.toInt + b.toInt) ∧ a - b = wrap (a.toInt - b.toInt) ∧
    a * b = wrap (a.toInt * b.toInt)) ∧
  ∀ z : Int, -2 ^ 31 ≤ (wrap z).toInt ∧ (wrap z).toInt ≤ 2 ^ 31 - 1 ∧ (wrap z).toInt % 2 ^ 32 = z % 2 ^ 32

/-- The text that `echo` writes for an integer is a line that `input` reads as the same integer. Both texts are the
spec's decisions D16 and D17. -/
def Obligations.EchoedIntegerReadsBack : Prop :=
  ∀ n : Word, parseInt32 (decimal n) = some n

/-- Memories in canonical form that read the same everywhere are equal data. The form is the model's (log entry 6). -/
def Obligations.EqualMemoriesAreEqualData : Prop :=
  ∀ m m' : Memory, m.wf → m'.wf → (∀ a, m.read a = m'.read a) → m = m'
end

