-- ==== Sys2Proof/Laws/State.lean ====
section
/-! SUPPORT. What each update of State does to each field. -/

namespace Sys2Proof.Machine

variable (s : State) (i : Nat) (c : Cell) (a : Word) (e : FatalError) (r : ReadResult)

@[simp] theorem State.setReg_regs : (s.setReg i c).regs = s.regs.set i c := rfl
@[simp] theorem State.setReg_pc : (s.setReg i c).pc = s.pc := rfl
@[simp] theorem State.setReg_flag : (s.setReg i c).flag = s.flag := rfl
@[simp] theorem State.setReg_mem : (s.setReg i c).mem = s.mem := rfl
@[simp] theorem State.setReg_run : (s.setReg i c).run = s.run := rfl
@[simp] theorem State.setReg_out : (s.setReg i c).out = s.out := rfl
@[simp] theorem State.setReg_memSize : (s.setReg i c).memSize = s.memSize := rfl
@[simp] theorem State.setReg_spIndex : (s.setReg i c).spIndex = s.spIndex := rfl
@[simp] theorem State.setReg_input : (s.setReg i c).input = s.input := rfl
@[simp] theorem State.setReg_nRegs : (s.setReg i c).nRegs = s.nRegs := List.length_set ..
@[simp] theorem State.setReg_cellAt : (s.setReg i c).cellAt a = s.cellAt a := rfl

@[simp] theorem State.setCell_regs : (s.setCell a c).regs = s.regs := rfl
@[simp] theorem State.setCell_pc : (s.setCell a c).pc = s.pc := rfl
@[simp] theorem State.setCell_flag : (s.setCell a c).flag = s.flag := rfl
@[simp] theorem State.setCell_mem : (s.setCell a c).mem = s.mem.write a.toNat c := rfl
@[simp] theorem State.setCell_run : (s.setCell a c).run = s.run := rfl
@[simp] theorem State.setCell_out : (s.setCell a c).out = s.out := rfl
@[simp] theorem State.setCell_memSize : (s.setCell a c).memSize = s.memSize := rfl
@[simp] theorem State.setCell_spIndex : (s.setCell a c).spIndex = s.spIndex := rfl
@[simp] theorem State.setCell_input : (s.setCell a c).input = s.input := rfl
@[simp] theorem State.setCell_nRegs : (s.setCell a c).nRegs = s.nRegs := rfl

@[simp] theorem State.raise_regs : (s.raise e).regs = s.regs := rfl
@[simp] theorem State.raise_pc : (s.raise e).pc = s.pc := rfl
@[simp] theorem State.raise_flag : (s.raise e).flag = s.flag := rfl
@[simp] theorem State.raise_mem : (s.raise e).mem = s.mem := rfl
@[simp] theorem State.raise_run : (s.raise e).run = .faulted e := rfl
@[simp] theorem State.raise_out : (s.raise e).out = s.out := rfl
@[simp] theorem State.raise_memSize : (s.raise e).memSize = s.memSize := rfl
@[simp] theorem State.raise_spIndex : (s.raise e).spIndex = s.spIndex := rfl
@[simp] theorem State.raise_input : (s.raise e).input = s.input := rfl

@[simp] theorem State.incPc_regs : s.incPc.regs = s.regs := rfl
@[simp] theorem State.incPc_pc : s.incPc.pc = s.pc + 1 := rfl
@[simp] theorem State.incPc_flag : s.incPc.flag = s.flag := rfl
@[simp] theorem State.incPc_mem : s.incPc.mem = s.mem := rfl
@[simp] theorem State.incPc_run : s.incPc.run = s.run := rfl
@[simp] theorem State.incPc_out : s.incPc.out = s.out := rfl
@[simp] theorem State.incPc_memSize : s.incPc.memSize = s.memSize := rfl
@[simp] theorem State.incPc_spIndex : s.incPc.spIndex = s.spIndex := rfl
@[simp] theorem State.incPc_input : s.incPc.input = s.input := rfl

@[simp] theorem State.answer_input : (s.answer r).input = s.input ++ [r] := rfl
@[simp] theorem State.answer_mem : (s.answer r).mem = s.mem := rfl
@[simp] theorem State.answer_regs : (s.answer r).regs = s.regs := rfl
@[simp] theorem State.answer_run : (s.answer r).run = s.run := rfl

/-- The stored register reads back, and no other register changes. -/
theorem State.setReg_get (k : Nat) :
    (s.setReg i c).regs[k]? = if k = i then (if i < s.nRegs then some c else none) else s.regs[k]? := by
  unfold State.nRegs
  rw [State.setReg_regs, List.getElem?_set]
  by_cases h : k = i
  · subst h; simp
  · simp [h, Ne.symm h]

end Sys2Proof.Machine
end

