-- ==== Sys2Proof/Laws/Memory.lean ====
section
/-! SUPPORT. Reading, writing and the canonical form of memory. -/

namespace Sys2Proof.Machine

@[simp] theorem Memory.read_nil (a : Nat) : Memory.read [] a = .unset := rfl

theorem Memory.read_cons (k : Nat) (c : Cell) (m : Memory) (a : Nat) :
    Memory.read ((k, c) :: m) a = if k = a then c else Memory.read m a := rfl

/-- Where no entry has the address, the cell is unset. -/
theorem Memory.read_eq_unset {m : Memory} {a : Nat} (h : ∀ e ∈ m, e.1 ≠ a) : m.read a = .unset := by
  induction m with
  | nil => rfl
  | cons e m ih =>
    obtain ⟨k, c⟩ := e
    rw [Memory.read_cons, if_neg (h (k, c) (by simp)), ih fun e he => h e (by simp [he])]

/-- A cell that is not unset has an entry. -/
theorem Memory.mem_of_read {m : Memory} {a : Nat} (h : m.read a ≠ .unset) : (a, m.read a) ∈ m := by
  induction m with
  | nil => exact absurd rfl h
  | cons e m ih =>
    obtain ⟨k, c⟩ := e
    rw [Memory.read_cons] at h ⊢
    split
    · rename_i hk; simp [hk]
    · rename_i hk; rw [if_neg hk] at h; exact List.mem_cons_of_mem _ (ih h)

/-- In canonical form an entry is what its address reads as. -/
theorem Memory.read_of_mem {m : Memory} {a : Nat} {c : Cell} (hw : m.wf) (h : (a, c) ∈ m) : m.read a = c := by
  induction m with
  | nil => simp at h
  | cons e m ih =>
    obtain ⟨k, d⟩ := e
    obtain ⟨hp, hn⟩ := hw
    rw [List.pairwise_cons] at hp
    rw [Memory.read_cons]
    rcases List.mem_cons.mp h with h | h
    · cases h; simp
    · rw [if_neg (by have := hp.1 _ h; simp at this; omega)]
      exact ih ⟨hp.2, fun e he => hn e (by simp [he])⟩ h

theorem Memory.read_insert (m : Memory) (a b : Nat) (c : Cell) :
    (Memory.insert a c m).read b = if b = a then c else m.read b := by
  induction m with
  | nil => simp [Memory.insert, Memory.read_cons, eq_comm]
  | cons e m ih =>
    obtain ⟨k, d⟩ := e
    simp only [Memory.insert]
    split
    · simp only [Memory.read_cons, eq_comm]
    · split
      · subst k; simp only [Memory.read_cons, eq_comm]; split <;> rfl
      · rename_i h1 h2
        simp only [Memory.read_cons, ih]
        by_cases hb : b = a
        · subst b; simp [show ¬ k = a by omega]
        · simp [hb]

theorem Memory.read_erase (m : Memory) (a b : Nat) :
    Memory.read (m.filter (fun e => e.1 ≠ a)) b = if b = a then .unset else m.read b := by
  induction m with
  | nil => simp
  | cons e m ih =>
    obtain ⟨k, d⟩ := e
    by_cases hk : k = a
    · subst k; simp only [List.filter, ne_eq, not_true_eq_false, decide_false, ih, Memory.read_cons]
      by_cases hb : b = a
      · simp [hb]
      · simp [hb, Ne.symm hb]
    · simp only [List.filter, ne_eq, hk, not_false_eq_true, decide_true, Memory.read_cons, ih]
      by_cases hb : b = a
      · subst b; simp [hk]
      · simp [hb]

/-- A read after a write: the written value at its address, every other address as before. -/
@[simp] theorem Memory.read_write (m : Memory) (a b : Nat) (c : Cell) :
    (m.write a c).read b = if b = a then c else m.read b := by
  unfold Memory.write
  split
  · rename_i h; rw [Memory.read_erase, h]
  · exact Memory.read_insert m a b c

theorem Memory.mem_insert {m : Memory} {a : Nat} {c : Cell} {e : Nat × Cell} (h : e ∈ Memory.insert a c m) :
    e = (a, c) ∨ e ∈ m := by
  induction m with
  | nil => simpa [Memory.insert] using h
  | cons x m ih =>
    obtain ⟨k, d⟩ := x
    simp only [Memory.insert] at h
    split at h
    · simpa using h
    · split at h
      · simp at h ⊢; tauto
      · simp at h ⊢; rcases h with h | h
        · tauto
        · rcases ih h with h | h <;> tauto

/-- Every entry after a write is the written one or stood there before. -/
theorem Memory.mem_write {m : Memory} {a : Nat} {c : Cell} {e : Nat × Cell} (h : e ∈ m.write a c) :
    e = (a, c) ∨ e ∈ m := by
  unfold Memory.write at h
  split at h
  · exact .inr (List.mem_of_mem_filter h)
  · exact Memory.mem_insert h

theorem Memory.pairwise_insert {m : Memory} (a : Nat) (c : Cell) (h : m.Pairwise (fun x y => x.1 < y.1)) :
    (Memory.insert a c m).Pairwise (fun x y => x.1 < y.1) := by
  induction m with
  | nil => simp [Memory.insert]
  | cons x m ih =>
    obtain ⟨k, d⟩ := x
    have h' := List.pairwise_cons.mp h
    simp only [Memory.insert]
    split
    · rename_i hlt
      refine List.pairwise_cons.mpr ⟨fun y hy => ?_, h⟩
      rcases List.mem_cons.mp hy with hy | hy
      · simpa [hy] using hlt
      · have := h'.1 y hy; simp at this ⊢; omega
    · split
      · rename_i heq; subst k
        exact List.pairwise_cons.mpr ⟨fun y hy => h'.1 y hy, h'.2⟩
      · refine List.pairwise_cons.mpr ⟨fun y hy => ?_, ih h'.2⟩
        rcases Memory.mem_insert hy with hy | hy
        · simp [hy]; omega
        · exact h'.1 y hy

/-- A write keeps the canonical form. -/
theorem Memory.write_wf {m : Memory} (h : m.wf) (a : Nat) (c : Cell) : (m.write a c).wf := by
  refine ⟨?_, fun e he => ?_⟩
  · unfold Memory.write
    split
    · exact List.Pairwise.filter _ h.1
    · exact Memory.pairwise_insert a c h.1
  · unfold Memory.write at he
    split at he
    · exact h.2 e (List.mem_of_mem_filter he)
    · rename_i hc
      rcases Memory.mem_insert he with rfl | he
      · exact hc
      · exact h.2 e he

/-- Loading an image keeps the canonical form. -/
theorem loadImage_wf {n : Nat} {image : List (Nat × ImageItem)} {m m' : Memory} (hm : m.wf)
    (h : loadImage n image m = .ok m') : m'.wf := by
  induction image generalizing m with
  | nil => cases h; exact hm
  | cons e image ih =>
    obtain ⟨a, x⟩ := e
    simp only [loadImage] at h
    split at h
    · cases hx : x.cell with
      | error e => simp [hx, Except.bind] at h
      | ok c => exact ih (Memory.write_wf hm a c) (by simpa [hx, Except.bind] using h)
    · cases h

theorem reset_mem_wf : State.reset.mem.wf := by decide

end Sys2Proof.Machine
end

