-- ==== Sys2Proof/Laws/Actions.lean ====
section
/-! SUPPORT. What each shared operation can do, said once: its result where its premises hold, and what every action
built from the operations keeps. -/

namespace Sys2Proof.Machine

variable {α β : Type}

/-! ### Results -/

@[simp] theorem Act.pure_run (a : α) (s : State) : Act.pure a s = .ok a s := rfl
@[simp] theorem Act.fail_run (e : FatalError) (s : State) : (Act.fail e : Act α) s = .err e s := rfl

theorem Act.bind_run (m : Act α) (f : α → Act β) (s : State) :
    m.bind f s = match m s with
      | .ok a t => f a t
      | .err e t => .err e t := rfl

theorem Act.bind_ok {m : Act α} {f : α → Act β} {s t : State} {a : α} (h : m s = .ok a t) :
    m.bind f s = f a t := by rw [Act.bind_run, h]

theorem Act.bind_err {m : Act α} {f : α → Act β} {s t : State} {e : FatalError} (h : m s = .err e t) :
    m.bind f s = .err e t := by rw [Act.bind_run, h]

@[simp] theorem finish_ok (a : α) (s : State) : finish (.ok a s) = .next s := rfl
@[simp] theorem finish_err (e : FatalError) (s : State) : finish (.err e s : Res α) = .next (s.raise e) := rfl

theorem readReg_ok {s : State} {i : Nat} {c : Cell} (h : s.regs[i]? = some c) : readReg i s = .ok c s := by
  simp [readReg, h]

theorem readReg_err {s : State} {i : Nat} (h : s.nRegs ≤ i) : readReg i s = .err (.registerOutOfRange i) s := by
  simp [readReg, List.getElem?_eq_none (show s.regs.length ≤ i from h)]

theorem writeInt_ok {s : State} {i : Nat} (n : Word) (h : i < s.nRegs) :
    writeInt i n s = .ok () (s.setReg i (.int n)) := by simp [writeInt, h]

theorem writeInt_err {s : State} {i : Nat} (n : Word) (h : s.nRegs ≤ i) :
    writeInt i n s = .err (.registerOutOfRange i) s := by simp [writeInt, Nat.not_lt.mpr h]

theorem writeReg_ok {s : State} {i : Nat} {c : Cell} (site : Site) (h : i < s.nRegs) (hc : c.isData = true) :
    writeReg site i c s = .ok () (s.setReg i c) := by
  cases c <;> simp_all [writeReg, Cell.isData]

theorem writeReg_instr {s : State} {i : Nat} (site : Site) (j : Instr) (h : i < s.nRegs) :
    writeReg site i (.instr j) s = .err (.typeMismatch site .instr) s := by simp [writeReg, h]

theorem writeReg_err {s : State} {i : Nat} (site : Site) (c : Cell) (h : s.nRegs ≤ i) :
    writeReg site i c s = .err (.registerOutOfRange i) s := by simp [writeReg, Nat.not_lt.mpr h]

theorem memRead_ok {s : State} {a : Word} (h : s.InMem a) : memRead a s = .ok (s.cellAt a) s := by
  simp only [memRead, if_pos h]

theorem memRead_err {s : State} {a : Word} (h : ¬ s.InMem a) : memRead a s = .err (.memoryOutOfRange a) s := by
  simp only [memRead, if_neg h]

theorem memWrite_ok {s : State} {a : Word} (c : Cell) (h : s.InMem a) :
    memWrite a c s = .ok () (s.setCell a c) := by simp only [memWrite, if_pos h]

theorem memWrite_err {s : State} {a : Word} (c : Cell) (h : ¬ s.InMem a) :
    memWrite a c s = .err (.memoryOutOfRange a) s := by simp only [memWrite, if_neg h]

theorem setPc_ok {s : State} {v : Word} (h : 0 ≤ v.toInt) : setPc v s = .ok () { s with pc := v } := by
  simp only [setPc, if_neg (Int.not_lt.mpr h)]

theorem setPc_err {s : State} {v : Word} (h : v.toInt < 0) : setPc v s = .err (.negativePC v) s := by
  simp only [setPc, if_pos h]

@[simp] theorem asInt_int (site : Site) (n : Word) (s : State) : asInt site (.int n) s = .ok n s := rfl

/-- `AsInt` of anything else names the kind it found. -/
theorem asInt_err {c : Cell} (site : Site) (s : State) (h : ∀ n, c ≠ .int n) :
    asInt site c s = .err (.typeMismatch site c.kind) s := by
  cases c with
  | int n => exact absurd rfl (h n)
  | unset => rfl
  | text t => rfl
  | instr i => rfl

@[simp] theorem Cell.lazyZero_ne_unset (c : Cell) : c.lazyZero ≠ .unset := by cases c <;> simp [Cell.lazyZero]

/-- Reading a register through the accessor. -/
theorem resolveReg_ok {s : State} {i : Nat} {c : Cell} (h : s.regs[i]? = some c) :
    resolveReg i s = .ok c.lazyZero (s.setReg i c.lazyZero) := by
  have hi : i < s.nRegs := (List.getElem?_eq_some_iff.mp h).1
  have same : ∀ d, s.regs[i]? = some d → s.setReg i d = s := fun d hd => by
    obtain ⟨hl, he⟩ := List.getElem?_eq_some_iff.mp hd
    simp only [State.setReg, ← he, List.set_getElem_self]
  rw [resolveReg, Act.bind_ok (readReg_ok h)]
  cases c with
  | unset =>
    show (writeInt i 0).bind (fun _ => readReg i) s = _
    rw [Act.bind_ok (writeInt_ok 0 hi), readReg_ok (c := .int 0) (by rw [State.setReg_get]; simp [hi])]
    rfl
  | int n => rw [Cell.lazyZero, same _ h]; rfl
  | text t => rw [Cell.lazyZero, same _ h]; rfl
  | instr j => rw [Cell.lazyZero, same _ h]; rfl

theorem resolveReg_err {s : State} {i : Nat} (h : s.nRegs ≤ i) :
    resolveReg i s = .err (.registerOutOfRange i) s := by rw [resolveReg, Act.bind_err (readReg_err h)]

/-- Reading a memory cell through the accessor. -/
theorem resolveMem_ok {s : State} {a : Word} (h : s.InMem a) :
    resolveMem a s = .ok (s.cellAt a).lazyZero (if s.cellAt a = .unset then s.setCell a (.int 0) else s) := by
  rw [resolveMem, Act.bind_ok (memRead_ok h)]
  cases hc : s.cellAt a with
  | unset =>
    show (memWrite a (.int 0)).bind (fun _ => memRead a) s = _
    rw [Act.bind_ok (memWrite_ok _ h), memRead_ok (s := s.setCell a (.int 0)) h]
    simp [State.cellAt, Cell.lazyZero]
  | int n => simp [Cell.lazyZero]
  | text t => simp [Cell.lazyZero]
  | instr j => simp [Cell.lazyZero]

theorem resolveMem_err {s : State} {a : Word} (h : ¬ s.InMem a) :
    resolveMem a s = .err (.memoryOutOfRange a) s := by rw [resolveMem, Act.bind_err (memRead_err h)]

theorem ea_ok {s : State} {d : Desc} {b : Word} (h : s.regs[Desc.idx d]? = some (.int b)) :
    ea d s = .ok (b + Desc.off d) s := by rw [ea, Act.bind_ok (readReg_ok h)]; rfl

theorem ea_range {s : State} {d : Desc} (h : s.nRegs ≤ Desc.idx d) :
    ea d s = .err (.registerOutOfRange (Desc.idx d)) s := by rw [ea, Act.bind_err (readReg_err h)]

theorem ea_kind {s : State} {d : Desc} {c : Cell} (h : s.regs[Desc.idx d]? = some c) (hc : ∀ n, c ≠ .int n) :
    ea d s = .err (.typeMismatch .ea c.kind) s := by
  rw [ea, Act.bind_ok (readReg_ok h), Act.bind_err (asInt_err .ea s hc)]

/-- Computing an address changes nothing. -/
theorem ea_state (d : Desc) (s : State) : (∃ a, ea d s = .ok a s) ∨ (∃ e, ea d s = .err e s) := by
  cases h : s.regs[Desc.idx d]? with
  | none => exact .inr ⟨_, ea_range (List.getElem?_eq_none_iff.mp h)⟩
  | some c =>
    by_cases hc : ∃ n, c = .int n
    · obtain ⟨n, rfl⟩ := hc; exact .inl ⟨_, ea_ok h⟩
    · exact .inr ⟨_, ea_kind h fun n hn => hc ⟨n, hn⟩⟩

theorem resolve_direct {d : Desc} (h : Desc.ind d = false) : resolve d = resolveReg (Desc.idx d) := by
  simp [resolve, h]

theorem resolve_indirect {d : Desc} (h : Desc.ind d = true) : resolve d = (ea d).bind resolveMem := by
  simp [resolve, h]

theorem assign_direct {d : Desc} (site : Site) (c : Cell) (h : Desc.ind d = false) :
    assign site d c = writeReg site (Desc.idx d) c := by simp [assign, h]

theorem assign_indirect {d : Desc} (site : Site) (c : Cell) (h : Desc.ind d = true) :
    assign site d c = (ea d).bind fun a => memWrite a c := by simp [assign, h]

theorem readSp_ok {s : State} {n : Word} (h : s.regs[s.spIndex]? = some (.int n)) : readSp s = .ok n s := by
  rw [readSp, Act.bind_ok (readReg_ok h)]; rfl

theorem readSp_kind {s : State} {c : Cell} (h : s.regs[s.spIndex]? = some c) (hc : ∀ n, c ≠ .int n) :
    readSp s = .err (.typeMismatch .sp c.kind) s := by
  rw [readSp, Act.bind_ok (readReg_ok h), asInt_err .sp s hc]

theorem spIndex_lt {s : State} {c : Cell} (h : s.regs[s.spIndex]? = some c) : s.spIndex < s.nRegs :=
  (List.getElem?_eq_some_iff.mp h).1

/-- A push. -/
theorem stackPush_ok {s : State} {n : Word} (v : Cell) (h : s.regs[s.spIndex]? = some (.int n)) (ha : s.InMem n) :
    stackPush v s = .ok () ((s.setCell n v).setReg s.spIndex (.int (n - 1))) := by
  rw [stackPush, Act.bind_ok (readSp_ok h), Act.bind_ok (memWrite_ok v ha)]
  exact writeInt_ok (s := s.setCell n v) (n - 1) (spIndex_lt h)

theorem stackPush_range {s : State} {n : Word} (v : Cell) (h : s.regs[s.spIndex]? = some (.int n))
    (ha : ¬ s.InMem n) : stackPush v s = .err (.memoryOutOfRange n) s := by
  rw [stackPush, Act.bind_ok (readSp_ok h), Act.bind_err (memWrite_err v ha)]

theorem stackPush_kind {s : State} {c : Cell} (v : Cell) (h : s.regs[s.spIndex]? = some c) (hc : ∀ n, c ≠ .int n) :
    stackPush v s = .err (.typeMismatch .sp c.kind) s := by
  rw [stackPush, Act.bind_err (readSp_kind h hc)]

/-- A pop: the pointer is written before the read. -/
theorem stackPop_ok {s : State} {n : Word} (h : s.regs[s.spIndex]? = some (.int n)) (ha : s.InMem (n + 1)) :
    stackPop s = .ok (s.cellAt (n + 1)) (s.setReg s.spIndex (.int (n + 1))) := by
  rw [stackPop, Act.bind_ok (readSp_ok h),
    Act.bind_ok (show writeSp (n + 1) s = _ from writeInt_ok (n + 1) (spIndex_lt h))]
  exact memRead_ok (s := s.setReg s.spIndex (.int (n + 1))) ha

theorem stackPop_range {s : State} {n : Word} (h : s.regs[s.spIndex]? = some (.int n)) (ha : ¬ s.InMem (n + 1)) :
    stackPop s = .err (.memoryOutOfRange (n + 1)) (s.setReg s.spIndex (.int (n + 1))) := by
  rw [stackPop, Act.bind_ok (readSp_ok h),
    Act.bind_ok (show writeSp (n + 1) s = _ from writeInt_ok (n + 1) (spIndex_lt h))]
  exact memRead_err (s := s.setReg s.spIndex (.int (n + 1))) ha

theorem stackPop_kind {s : State} {c : Cell} (h : s.regs[s.spIndex]? = some c) (hc : ∀ n, c ≠ .int n) :
    stackPop s = .err (.typeMismatch .sp c.kind) s := by
  rw [stackPop, Act.bind_err (readSp_kind h hc)]

/-! ### What actions keep -/

/-- The action keeps `I`, whether it ends in a value or in an error, and its value satisfies `Q`. -/
def Act.Keeps (I : State → Prop) (Q : α → Prop) (m : Act α) : Prop :=
  ∀ s, I s → match m s with
    | .ok a t => I t ∧ Q a
    | .err _ t => I t

variable {I : State → Prop}

theorem Act.Keeps.pure {Q : α → Prop} {a : α} (h : Q a) : (Act.pure a).Keeps I Q := fun _ hs => ⟨hs, h⟩

theorem Act.Keeps.fail {Q : α → Prop} (e : FatalError) : (Act.fail e : Act α).Keeps I Q := fun _ hs => hs

theorem Act.Keeps.bind {Q : α → Prop} {R : β → Prop} {m : Act α} {f : α → Act β} (hm : m.Keeps I Q)
    (hf : ∀ a, Q a → (f a).Keeps I R) : (m.bind f).Keeps I R := by
  intro s hs
  have h := hm s hs
  rw [Act.bind_run]
  cases hr : m s with
  | ok a t => rw [hr] at h; exact hf a h.2 t h.1
  | err e t => rw [hr] at h; exact h

theorem Act.Keeps.mono {Q R : α → Prop} {m : Act α} (hm : m.Keeps I Q) (h : ∀ a, Q a → R a) : m.Keeps I R := by
  intro s hs
  have := hm s hs
  cases hr : m s with
  | ok a t => rw [hr] at this; exact ⟨this.1, h a this.2⟩
  | err e t => rw [hr] at this; exact this

/-- `I` survives every register write of data and every memory write of a value, and whatever a cell holds while `I`
holds satisfies `Q`. -/
structure Stable (I : State → Prop) (Q : Cell → Prop) : Prop where
  int : ∀ n, Q (.int n)
  reg : ∀ (s : State) (i : Nat) (c : Cell), I s → s.regs[i]? = some c → Q c
  cell : ∀ (s : State) (a : Word), I s → Q (s.cellAt a)
  setReg : ∀ (s : State) (i : Nat) (c : Cell), I s → i < s.nRegs → c.isData = true → Q c → I (s.setReg i c)
  setCell : ∀ (s : State) (a : Word) (c : Cell), I s → s.InMem a → c ≠ .unset → Q c → I (s.setCell a c)

variable {Q : Cell → Prop} (St : Stable I Q)

include St

theorem Stable.readReg (i : Nat) : (readReg i).Keeps I Q := by
  intro s hs
  unfold Machine.readReg
  cases h : s.regs[i]? with
  | none => exact hs
  | some c => exact ⟨hs, St.reg s i c hs h⟩

theorem Stable.memRead (a : Word) : (memRead a).Keeps I Q := by
  intro s hs
  by_cases h : s.InMem a
  · rw [memRead_ok h]; exact ⟨hs, St.cell s a hs⟩
  · rw [memRead_err h]; exact hs

theorem Stable.writeInt (i : Nat) (n : Word) : (writeInt i n).Keeps I (fun _ => True) := by
  intro s hs
  by_cases h : i < s.nRegs
  · rw [writeInt_ok n h]; exact ⟨St.setReg s i _ hs h rfl (St.int n), trivial⟩
  · rw [writeInt_err n (by omega)]; exact hs

theorem Stable.writeReg (site : Site) (i : Nat) (c : Cell) (hc : Q c) :
    (writeReg site i c).Keeps I (fun _ => True) := by
  intro s hs
  by_cases h : i < s.nRegs
  · cases hd : c.isData with
    | true => rw [writeReg_ok site h hd]; exact ⟨St.setReg s i c hs h hd hc, trivial⟩
    | false =>
      cases c with
      | instr j => rw [writeReg_instr site j h]; exact hs
      | unset => cases hd
      | int n => cases hd
      | text t => cases hd
  · rw [writeReg_err site c (by omega)]; exact hs

theorem Stable.memWrite (a : Word) (c : Cell) (hu : c ≠ .unset) (hc : Q c) :
    (memWrite a c).Keeps I (fun _ => True) := by
  intro s hs
  by_cases h : s.InMem a
  · rw [memWrite_ok c h]; exact ⟨St.setCell s a c hs h hu hc, trivial⟩
  · rw [memWrite_err c h]; exact hs

omit St in
theorem asInt_keeps (site : Site) (c : Cell) : (asInt site c).Keeps I (fun n => c = .int n) := by
  cases c with
  | int n => exact Act.Keeps.pure rfl
  | unset => exact Act.Keeps.fail _
  | text t => exact Act.Keeps.fail _
  | instr i => exact Act.Keeps.fail _

theorem Stable.ea (d : Desc) : (ea d).Keeps I (fun _ => True) :=
  (St.readReg _).bind fun c _ => (asInt_keeps .ea c).bind fun _ _ => Act.Keeps.pure trivial

/-- A value that `Resolve` answers is never `Unset`. -/
theorem Stable.resolve (d : Desc) : (resolve d).Keeps I (fun c => Q c ∧ c ≠ .unset) := by
  have lz : ∀ c : Cell, Q c → Q c.lazyZero := fun c hc => by
    cases c with
    | unset => exact St.int 0
    | int n => exact hc
    | text t => exact hc
    | instr i => exact hc
  cases hd : Desc.ind d with
  | false =>
    rw [resolve_direct hd]
    intro s hs
    cases h : s.regs[Desc.idx d]? with
    | none => rw [resolveReg_err (List.getElem?_eq_none_iff.mp h)]; exact hs
    | some c =>
      have hq := lz c (St.reg s _ c hs h)
      rw [resolveReg_ok h]
      refine ⟨?_, hq, Cell.lazyZero_ne_unset c⟩
      have hi : Desc.idx d < s.nRegs := (List.getElem?_eq_some_iff.mp h).1
      cases c with
      | unset => exact St.setReg s _ _ hs hi rfl hq
      | int n => exact St.setReg s _ _ hs hi rfl hq
      | text t => exact St.setReg s _ _ hs hi rfl hq
      | instr j =>
        obtain ⟨hl, he⟩ := List.getElem?_eq_some_iff.mp h
        have : s.setReg (Desc.idx d) (Cell.instr j).lazyZero = s := by
          simp only [State.setReg, Cell.lazyZero, ← he, List.set_getElem_self]
        rw [this]; exact hs
  | true =>
    rw [resolve_indirect hd]
    refine (St.ea d).bind fun a _ s hs => ?_
    by_cases h : s.InMem a
    · rw [resolveMem_ok h]
      refine ⟨?_, lz _ (St.cell s a hs), Cell.lazyZero_ne_unset _⟩
      split
      · exact St.setCell s a _ hs h (by simp) (St.int 0)
      · exact hs
    · rw [resolveMem_err h]; exact hs

theorem Stable.assign (site : Site) (d : Desc) (c : Cell) (hu : Desc.ind d = true → c ≠ .unset) (hc : Q c) :
    (assign site d c).Keeps I (fun _ => True) := by
  cases hd : Desc.ind d with
  | false => rw [assign_direct site c hd]; exact St.writeReg site _ c hc
  | true => rw [assign_indirect site c hd]; exact (St.ea d).bind fun a _ => St.memWrite a c (hu hd) hc

theorem Stable.moveSource (src : MoveSrc) : (moveSource src).Keeps I (fun c => Q c ∧ c ≠ .unset) := by
  cases src with
  | num n => exact Act.Keeps.pure ⟨St.int n, by simp⟩
  | reg d => exact St.resolve d

theorem Stable.readSp : readSp.Keeps I (fun _ => True) := fun s hs =>
  ((St.readReg s.spIndex).bind fun c _ => (asInt_keeps .sp c).mono fun _ _ => trivial) s hs

theorem Stable.writeSp (n : Word) : (writeSp n).Keeps I (fun _ => True) := fun s hs =>
  St.writeInt s.spIndex n s hs

theorem Stable.stackPush (v : Cell) (hu : v ≠ .unset) (hv : Q v) : (stackPush v).Keeps I (fun _ => True) :=
  St.readSp.bind fun sp _ => (St.memWrite sp v hu hv).bind fun _ _ => St.writeSp _

theorem Stable.stackPop : stackPop.Keeps I Q :=
  St.readSp.bind fun _ _ => (St.writeSp _).bind fun _ _ => St.memRead _

theorem Stable.binaryOp (f : Word → Word → Word) (s1 s2 : Site) (rd rs1 rs2 : Desc) :
    (binaryOp f s1 s2 rd rs1 rs2).Keeps I (fun _ => True) :=
  (St.resolve rs1).bind fun a _ => (St.resolve rs2).bind fun b _ =>
    (asInt_keeps s1 a).bind fun _ _ => (asInt_keeps s2 b).bind fun _ _ => St.writeInt _ _

theorem Stable.unaryOp (f : Word → Word) (s1 : Site) (r : Desc) : (unaryOp f s1 r).Keeps I (fun _ => True) :=
  (St.resolve r).bind fun a _ => (asInt_keeps s1 a).bind fun _ _ => St.writeInt _ _

omit St in
/-- What an action keeps, its instruction keeps. -/
theorem finish_keeps {P : α → Prop} {m : Act α} (hm : m.Keeps I P) (hr : ∀ s e, I s → I (s.raise e)) {s t : State}
    (hs : I s) (h : finish (m s) = .next t) : I t := by
  have := hm s hs
  cases hr' : m s with
  | ok a u => rw [hr'] at this h; cases h; exact this.1
  | err e u => rw [hr'] at this h; cases h; exact hr u e this

end Sys2Proof.Machine
end

