-- ==== Sys2Proof/Laws/Codec.lean ====
section
/-! SUPPORT. The construction check, one lemma per position kind and per opcode table. -/

namespace Sys2Proof

@[simp] theorem Opcode.ofName_name (op : Opcode) : Opcode.ofName op.name = some op := by cases op <;> rfl

/-- A known name is the name of its opcode. -/
theorem Opcode.name_of_ofName {n : String} {op : Opcode} (h : Opcode.ofName n = some op) : op.name = n := by
  unfold Opcode.ofName at h
  split at h <;> first | (cases h; rfl) | cases h

theorem takeInt32_toInt (p : Nat) (n : Word) : takeInt32 p n.toInt = .ok n := by
  have := n.toInt_lt
  have := n.le_toInt
  unfold takeInt32
  rw [if_pos (by omega), BitVec.ofInt_toInt]

theorem takeR_direct (p : Nat) {d : Desc} (h : Desc.ind d = false) : takeR p (.reg d) = .ok d := by simp [takeR, h]

theorem takeInt32_ok {p : Nat} {n : Int} {w : Word} (h : takeInt32 p n = .ok w) : w.toInt = n := by
  unfold takeInt32 at h
  split at h
  · cases h; rw [BitVec.toInt_ofInt]; apply Int.bmod_eq_of_le <;> omega
  · cases h

theorem takeR_ok {p : Nat} {a : Arg} {d : Desc} (h : takeR p a = .ok d) : a = .reg d ∧ Desc.ind d = false := by
  cases a with
  | reg e => simp only [takeR] at h; split at h <;> simp_all
  | num n => cases h
  | txt t => cases h

theorem takeD_ok {p : Nat} {a : Arg} {d : Desc} (h : takeD p a = .ok d) : a = .reg d := by
  cases a <;> simp_all [takeD]

theorem takeN_ok {p : Nat} {a : Arg} {w : Word} (h : takeN p a = .ok w) : a = .num w.toInt := by
  cases a with
  | num n => rw [takeInt32_ok h]
  | reg d => cases h
  | txt t => cases h

theorem takeMoveSrc_ok {p : Nat} {a : Arg} {m : MoveSrc} (h : takeMoveSrc p a = .ok m) : a = m.arg := by
  cases a with
  | num n =>
    simp only [takeMoveSrc] at h
    cases hw : takeInt32 p n with
    | ok w => rw [hw] at h; cases h; rw [MoveSrc.arg, takeInt32_ok hw]
    | error e => rw [hw] at h; cases h
  | reg d => cases h; rfl
  | txt t => cases h

/-- The construction check answers by the opcode of the name. -/
theorem decode_some {r : RawInstr} {op : Opcode} (h : Opcode.ofName r.name = some op) :
    decode r = (construct op r.args).mapError (ConstructionError.mk r.name) := by simp [decode, h]

theorem decode_none {r : RawInstr} (h : Opcode.ofName r.name = none) : decode r = .error ⟨r.name, .unknownOpcode⟩ := by
  simp [decode, h]

end Sys2Proof
end

