-- ==== Sys2Proof/Laws/Exec.lean ====
section
/-! SUPPORT. What every instruction and every step keeps: one inversion for `exec`, one for `step`. -/

namespace Sys2Proof.Machine

variable {I : State → Prop} {Q : Cell → Prop}

/-- A property that survives every elementary update an instruction makes survives the instruction. The updates of
`pc`, the flag, the output and the input only count for the instructions that make them. -/
theorem exec_keeps (St : Stable I Q) (hraise : ∀ s e, I s → I (s.raise e)) {i : Instr}
    (hpc : i.WritesPc → ∀ s v, I s → 0 ≤ v.toInt → I { s with pc := v })
    (hflag : i.WritesFlag → ∀ s b, I s → I { s with flag := b })
    (hout : i.IsEcho → ∀ s t, I s → I { s with out := s.out ++ t })
    (hin : i.IsInput → ∀ s r rest, I s → s.input = r :: rest → I { s with input := rest })
    (hhalt : i = .halt → ∀ s, I s → I { s with run := .halted })
    {s t : State} (hs : I s) (h : exec i s = .next t) : I t := by
  have pcK : i.WritesPc → ∀ v, (setPc v).Keeps I (fun _ => True) := fun hi v u hu => by
    by_cases hv : v.toInt < 0
    · rw [setPc_err hv]; exact hu
    · rw [setPc_ok (by omega)]; exact ⟨hpc hi u v hu (by omega), trivial⟩
  have flagK : i.WritesFlag → ∀ b, (setFlag b).Keeps I (fun _ => True) := fun hi b u hu => ⟨hflag hi u b hu, trivial⟩
  cases i with
  | add rd rs1 rs2 => exact finish_keeps (St.binaryOp _ _ _ rd rs1 rs2) hraise hs h
  | mul rd rs1 rs2 => exact finish_keeps (St.binaryOp _ _ _ rd rs1 rs2) hraise hs h
  | increment r => exact finish_keeps (St.unaryOp _ _ r) hraise hs h
  | decrement r => exact finish_keeps (St.unaryOp _ _ r) hraise hs h
  | load rd addr =>
    exact finish_keeps ((St.memRead addr).bind fun c hc => St.writeReg _ _ c hc) hraise hs h
  | move dst src =>
    exact finish_keeps ((St.moveSource src).bind fun v hv => St.assign _ dst v (fun _ => hv.2) hv.1) hraise hs h
  | push r => exact finish_keeps ((St.resolve r).bind fun v hv => St.stackPush v hv.2 hv.1) hraise hs h
  | pop r =>
    exact finish_keeps (St.stackPop.bind fun c hc => St.writeReg _ _ c hc) hraise hs h
  | call target =>
    exact finish_keeps ((St.stackPush _ (by simp) (St.int _)).bind fun _ _ => pcK trivial _) hraise hs h
  | ret =>
    exact finish_keeps (St.stackPop.bind fun c _ => (asInt_keeps .ret c).bind fun a _ => pcK trivial a) hraise hs h
  | jump target => exact finish_keeps (pcK trivial _) hraise hs h
  | testEquals ra rb =>
    exact finish_keeps ((St.resolve ra).bind fun a _ => (St.resolve rb).bind fun b _ => flagK trivial _) hraise hs h
  | echo d =>
    refine finish_keeps (P := fun _ => True) ((St.resolve d).bind fun v _ => ?_) hraise hs h
    refine Act.Keeps.bind (Q := fun _ => True) ?_ fun t _ u hu => ⟨hout trivial u t hu, trivial⟩
    cases v with
    | int n => exact Act.Keeps.pure trivial
    | text t => exact Act.Keeps.pure trivial
    | instr j => exact Act.Keeps.fail _
    | unset => exact Act.Keeps.fail _
  | input addr =>
    simp only [exec, execInput, State.readLine] at h
    cases hi : s.input with
    | nil => simp [hi] at h
    | cons r rest =>
      rw [hi] at h
      refine finish_keeps (m := acceptLine addr r) (P := fun _ => True) ?_ hraise (hin trivial s r rest hs hi) h
      cases r with
      | endOfInput => exact Act.Keeps.fail _
      | channelError => exact Act.Keeps.fail _
      | line l =>
        simp only [acceptLine]
        cases parseInt32 l with
        | none => exact flagK trivial _
        | some n => exact (St.memWrite addr _ (by simp) (St.int n)).bind fun _ _ => flagK trivial _
  | halt => cases h; exact hhalt rfl s hs

/-- The fetch changes nothing. -/
theorem fetch_state (s : State) : (∃ i, fetch s = .ok i s) ∨ (∃ e, fetch s = .err e s) := by
  unfold fetch
  by_cases h : s.InMem s.pc
  · rw [Act.bind_ok (memRead_ok h)]
    cases s.cellAt s.pc with
    | instr i => exact .inl ⟨i, rfl⟩
    | unset => exact .inr ⟨_, rfl⟩
    | int n => exact .inr ⟨_, rfl⟩
    | text t => exact .inr ⟨_, rfl⟩
  · rw [Act.bind_err (memRead_err h)]; exact .inr ⟨_, rfl⟩

/-- A record that the fetch gives stands at `pc`. -/
theorem fetch_ok {s : State} {i : Instr} : fetch s = .ok i s ↔ s.InMem s.pc ∧ s.cellAt s.pc = .instr i := by
  unfold fetch
  by_cases h : s.InMem s.pc
  · rw [Act.bind_ok (memRead_ok h)]
    cases s.cellAt s.pc with
    | instr j => simpa using fun _ => h
    | unset => simp
    | int n => simp
    | text t => simp
  · rw [Act.bind_err (memRead_err h)]; simp [h]

/-- Every step that answers a next state: a failed fetch, an instruction that ends the run, or an instruction after
which `pc` goes up by one. -/
theorem step_cases {s t : State} (h : step s = .next t) :
    s.run = .running ∧
      ((∃ e, fetch s = .err e s ∧ t = s.raise e) ∨
        ∃ i, s.InMem s.pc ∧ s.cellAt s.pc = .instr i ∧
          ((exec i s = .next t ∧ t.run ≠ .running) ∨
            ∃ u, exec i s = .next u ∧ u.run = .running ∧ t = u.incPc)) := by
  unfold step stepWith at h
  cases hr : s.run with
  | halted => simp [hr] at h
  | faulted e => simp [hr] at h
  | running =>
    refine ⟨rfl, ?_⟩
    rw [hr] at h
    rcases fetch_state s with ⟨i, hf⟩ | ⟨e, hf⟩
    · right
      obtain ⟨hm, hc⟩ := fetch_ok.mp hf
      refine ⟨i, hm, hc, ?_⟩
      simp only [hf] at h
      cases he : exec i s with
      | fault f => simp [he, retire] at h
      | refused r => simp [he, retire] at h
      | next u =>
        rw [he] at h
        simp only [retire] at h
        cases hu : u.run with
        | running => simp only [hu] at h; cases h; exact .inr ⟨u, rfl, hu, rfl⟩
        | halted => simp only [hu] at h; cases h; exact .inl ⟨rfl, by simp [hu]⟩
        | faulted e => simp only [hu] at h; cases h; exact .inl ⟨rfl, by simp [hu]⟩
    · left
      simp only [hf] at h
      cases h
      exact ⟨e, hf, rfl⟩

/-- A property that `raise` and `IncPC` keep, and every instruction keeps where it is fetched, is kept by the step. -/
theorem step_keeps {I : State → Prop} (hraise : ∀ s e, I s → I (s.raise e)) (hinc : ∀ s, I s → I s.incPc) {s t : State}
    (hexec : ∀ i u, s.cellAt s.pc = .instr i → exec i s = .next u → I u) (hs : I s) (h : step s = .next t) : I t := by
  obtain ⟨-, ⟨e, -, rfl⟩ | ⟨i, -, hc, ⟨he, -⟩ | ⟨u, he, -, rfl⟩⟩⟩ := step_cases h
  · exact hraise s e hs
  · exact hexec i t hc he
  · exact hinc u (hexec i u hc he)

end Sys2Proof.Machine
end

