-- ==== Sys2Proof/Laws/PerInstr.lean ====
section
/-! SUPPORT. Per-instruction facts about the encoding: the record of an instruction carries its opcode's name and as
many arguments as its format has positions. -/

namespace Sys2Proof.Laws.RecordShape

/-- The number of operands of each opcode (spec/30_encoding.md R82, R94). -/
def arity : Opcode → Nat
  | .add | .mul => 3
  | .load | .move | .testEquals => 2
  | .increment | .decrement | .push | .pop | .call | .jump | .echo | .input => 1
  | .ret | .halt => 0

/-- The record of `i` names `i`'s opcode and has that opcode's number of arguments. -/
def Statement (i : Instr) : Prop :=
  Opcode.ofName (encode i).name = some i.opcode ∧ (encode i).args.length = arity i.opcode

theorem add (rd rs1 rs2 : Desc) : Statement (.add rd rs1 rs2) := ⟨rfl, rfl⟩
theorem mul (rd rs1 rs2 : Desc) : Statement (.mul rd rs1 rs2) := ⟨rfl, rfl⟩
theorem increment (r : Desc) : Statement (.increment r) := ⟨rfl, rfl⟩
theorem decrement (r : Desc) : Statement (.decrement r) := ⟨rfl, rfl⟩
theorem load (rd : Desc) (addr : Word) : Statement (.load rd addr) := ⟨rfl, rfl⟩
theorem move (dst : Desc) (src : MoveSrc) : Statement (.move dst src) := ⟨rfl, rfl⟩
theorem push (r : Desc) : Statement (.push r) := ⟨rfl, rfl⟩
theorem pop (r : Desc) : Statement (.pop r) := ⟨rfl, rfl⟩
theorem call (target : Word) : Statement (.call target) := ⟨rfl, rfl⟩
theorem ret : Statement .ret := ⟨rfl, rfl⟩
theorem jump (target : Word) : Statement (.jump target) := ⟨rfl, rfl⟩
theorem testEquals (ra rb : Desc) : Statement (.testEquals ra rb) := ⟨rfl, rfl⟩
theorem echo (d : Desc) : Statement (.echo d) := ⟨rfl, rfl⟩
theorem input (addr : Word) : Statement (.input addr) := ⟨rfl, rfl⟩
theorem halt : Statement .halt := ⟨rfl, rfl⟩

end Sys2Proof.Laws.RecordShape
end

