-- ==== Sys2Proof/Laws/Text.lean ====
section
/-! SUPPORT. Decimal text: the value of what is written and read. -/

namespace Sys2Proof.Machine

/-- The value of a digit string, digit by digit. -/
theorem digitChar_toNat {d : Nat} (h : d < 10) : (digitChar d).toNat = 48 + d := by
  interval_cases d <;> rfl

theorem digitVal_digitChar {d : Nat} (h : d < 10) : digitVal (digitChar d) = some d := by
  have := digitChar_toNat h
  unfold digitVal
  rw [if_pos (by omega)]
  congr 1
  omega

theorem parseDigits_append (acc : Nat) (s t : Text) :
    parseDigits acc (s ++ t) = (parseDigits acc s).bind fun n => parseDigits n t := by
  induction s generalizing acc with
  | nil => rfl
  | cons c s ih =>
    simp only [List.cons_append, parseDigits]
    cases digitVal c with
    | none => rfl
    | some d => exact ih _

/-- What is written for a number below `10 ^ fuel` reads back as the number. -/
theorem parseDigits_natDigits {fuel n : Nat} (hf : 0 < fuel) (h : n < 10 ^ fuel) :
    parseDigits 0 (natDigits fuel n) = some n := by
  induction fuel generalizing n with
  | zero => omega
  | succ k ih =>
    unfold natDigits
    split
    · rename_i h10
      simp [parseDigits, digitVal_digitChar h10]
    · rename_i h10
      have hk : 0 < k := by
        rcases Nat.eq_zero_or_pos k with rfl | hk
        · simp at h; omega
        · exact hk
      rw [parseDigits_append, ih hk (by rw [pow_succ] at h; omega)]
      simp [parseDigits, digitVal_digitChar (Nat.mod_lt n (by decide : 0 < 10))]
      omega

theorem natDigits_ne_nil {fuel : Nat} (n : Nat) (hf : 0 < fuel) : natDigits fuel n ≠ [] := by
  cases fuel with
  | zero => omega
  | succ k => unfold natDigits; split <;> simp

/-- Every character that is written for a natural number is a digit. -/
theorem natDigits_digit {fuel n : Nat} {c : Char} (h : c ∈ natDigits fuel n) : ∃ d, d < 10 ∧ c = digitChar d := by
  induction fuel generalizing n with
  | zero => simp [natDigits] at h
  | succ k ih =>
    unfold natDigits at h
    split at h
    · rename_i h10; exact ⟨n, h10, by simpa using h⟩
    · rcases List.mem_append.mp h with h | h
      · exact ih h
      · exact ⟨n % 10, Nat.mod_lt _ (by decide), by simpa using h⟩

end Sys2Proof.Machine
end

