-- ==== Sys2Proof/Tests/Slice0.lean ====
section
/-! SUPPORT. Small tests of the model, each one step or one function on a small state, and the witnesses of the
statements' hypotheses. Expected values are those of spec/95_test_vectors.md (the vector is named), of the worked
examples of the rules, or of the tables of spec/30_encoding.md R94, R99. -/

namespace Sys2Proof.Tests

open Sys2Proof.Machine

/-! ### Helpers -/

/-- Set several registers. -/
def setRegs : List (Nat × Cell) → List Cell → List Cell
  | [], rs => rs
  | (k, c) :: l, rs => setRegs l (rs.set k c)

/-- The reference machine (`N = 16`, `M = 100`, `SP_INDEX = 15`) with these registers and cells. -/
def st (rs : List (Nat × Cell)) (m : Memory) : State :=
  { State.reset with regs := setRegs rs State.reset.regs, mem := m }

/-- The same machine at another address. -/
def stAt (pc : Word) (rs : List (Nat × Cell)) (m : Memory) : State := { st rs m with pc := pc }

/-- The same machine with answers of the host waiting. -/
def stIn (answers : List ReadResult) (m : Memory) : State := { st [] m with input := answers }

/-- A next state, seen through `f`. -/
def seen {α : Type} (f : State → α) : Host.Outcome State Fault Refusal → Option α
  | .next t => some (f t)
  | .fault _ => none
  | .refused _ => none

/-- One step of the instruction placed at `pc`, seen through `f`. -/
def after {α : Type} (i : Instr) (s : State) (f : State → α) : Option α := seen f (step (s.withFetchInstr i))

/-- `r<k>` and `[r<k>+o]` of R97. -/
def r (k : Nat) : Desc := Desc.enc k 0 false
def ind (k : Nat) (o : Int) : Desc := Desc.enc k o true

/-! ### Well-formedness: an ill-formed term for each check is refused, its neighbour is not -/

theorem test_wf_add : (Instr.add (ind 0 0) (r 1) (r 2)).wf = false ∧ (Instr.add (r 0) (ind 1 0) (r 2)).wf = false ∧
    (Instr.add (r 0) (r 1) (ind 2 0)).wf = false ∧ (Instr.add (r 0) (r 1) (r 2)).wf = true := by decide
theorem test_wf_mul : (Instr.mul (ind 0 0) (r 1) (r 2)).wf = false ∧ (Instr.mul (r 0) (ind 1 0) (r 2)).wf = false ∧
    (Instr.mul (r 0) (r 1) (ind 2 0)).wf = false ∧ (Instr.mul (r 0) (r 1) (r 2)).wf = true := by decide
theorem test_wf_one_register : (Instr.increment (ind 4 0)).wf = false ∧ (Instr.decrement (ind 4 0)).wf = false ∧
    (Instr.push (ind 4 0)).wf = false ∧ (Instr.pop (ind 4 0)).wf = false ∧ (Instr.load (ind 4 0) 7).wf = false := by
  decide
theorem test_wf_testEquals : (Instr.testEquals (ind 1 0) (r 2)).wf = false ∧
    (Instr.testEquals (r 1) (ind 2 0)).wf = false ∧ (Instr.testEquals (r 1) (r 255)).wf = true := by decide

/-! ### The descriptor codec: R99 and V-E1 to V-E10 -/

theorem test_codec_spellings : r 15 = 0x0000000F ∧ ind 1 0 = 0x01000001 ∧ ind 1 2 = 0x01000201 ∧
    ind 1 (-1) = 0x01FFFF01 ∧ ind 15 1 = 0x0100010F ∧ ind 15 (-1) = 0x01FFFF0F := by decide
theorem test_codec_samples : Desc.enc 255 32767 false = 0x007FFFFF ∧ Desc.enc 0 (-32768) true = 0x01800000 := by decide
theorem test_codec_high_bits : Desc.idx 0xFFFFFFFF = 255 ∧ (Desc.off 0xFFFFFFFF).toInt = -1 ∧ Desc.ind 0xFFFFFFFF = true ∧
    Desc.idx 0xFE000005 = 5 ∧ (Desc.off 0xFE000005).toInt = 0 ∧ Desc.ind 0xFE000005 = false := by decide
theorem test_codec_offsets : (Desc.off 0x007FFF00).toInt = 32767 ∧ (Desc.off 0x00800000).toInt = -32768 ∧
    Desc.idx 0x01800010 = 16 ∧ (Desc.off 0x01800010).toInt = -32768 := by decide

/-! ### Decoding: a record of every opcode, written out from R94 and the programs P1 to P8 -/

theorem test_decode_arithmetic :
    decode ⟨"add", [.reg 0x00000000, .reg 0x00000001, .reg 0x00000002]⟩ = .ok (.add (r 0) (r 1) (r 2)) ∧
    decode ⟨"mul", [.reg 0x00000003, .reg 0x00000000, .reg 0x00000001]⟩ = .ok (.mul (r 3) (r 0) (r 1)) ∧
    decode ⟨"increment", [.reg 0x00000002]⟩ = .ok (.increment (r 2)) ∧
    decode ⟨"decrement", [.reg 0x00000003]⟩ = .ok (.decrement (r 3)) := by decide
theorem test_decode_movement :
    decode ⟨"load", [.reg 0x00000002, .num 80]⟩ = .ok (.load (r 2) 80) ∧
    decode ⟨"move", [.reg 0x01000201, .num 7]⟩ = .ok (.move (ind 1 2) (.num 7)) ∧
    decode ⟨"move", [.reg 0x01FFFF01, .reg 0x00000003]⟩ = .ok (.move (ind 1 (-1)) (.reg (r 3))) := by decide
theorem test_decode_stack :
    decode ⟨"push", [.reg 0x00000002]⟩ = .ok (.push (r 2)) ∧ decode ⟨"pop", [.reg 0x00000003]⟩ = .ok (.pop (r 3)) ∧
    decode ⟨"call", [.num 5]⟩ = .ok (.call 5) ∧ decode ⟨"ret", []⟩ = .ok .ret := by decide
theorem test_decode_control_and_io :
    decode ⟨"jump", [.num (-2147483648)]⟩ = .ok (.jump 0x80000000) ∧
    decode ⟨"testEquals", [.reg 0x00000003, .reg 0x00000002]⟩ = .ok (.testEquals (r 3) (r 2)) ∧
    decode ⟨"echo", [.reg 0x01000101]⟩ = .ok (.echo (ind 1 1)) ∧ decode ⟨"input", [.num 60]⟩ = .ok (.input 60) ∧
    decode ⟨"halt", []⟩ = .ok .halt := by decide

/-- V-K1, V-K2, V-K5 to V-K7. -/
theorem test_construct_kinds :
    decode ⟨"add", [.reg 0x00000000, .reg 0x01000001, .reg 0x00000002]⟩ = .error ⟨"add", .argumentKind 2⟩ ∧
    decode ⟨"move", [.reg 0x00000000, .txt ['x']]⟩ = .error ⟨"move", .argumentKind 2⟩ ∧
    decode ⟨"load", [.reg 0x00000001, .reg 0x00000002]⟩ = .error ⟨"load", .argumentKind 2⟩ ∧
    decode ⟨"echo", [.num 5]⟩ = .error ⟨"echo", .argumentKind 1⟩ ∧
    decode ⟨"move", [.num 3, .reg 0x00000001]⟩ = .error ⟨"move", .argumentKind 1⟩ := by decide
/-- V-K3, V-K4, V-K8 to V-K10. -/
theorem test_construct_names_and_ranges :
    decode ⟨"push", []⟩ = .error ⟨"push", .arity⟩ ∧ decode ⟨"jmp", [.num 3]⟩ = .error ⟨"jmp", .unknownOpcode⟩ ∧
    decode ⟨"jump", [.num 2147483648]⟩ = .error ⟨"jump", .literalRange 1⟩ ∧
    decode ⟨"add", [.reg 0x00000010, .reg 0x00000001, .reg 0x00000002]⟩ = .ok (.add (r 16) (r 1) (r 2)) ∧
    decode ⟨"halt", [.num 0]⟩ = .error ⟨"halt", .arity⟩ := by decide
theorem test_host_words_name_no_record : decodeTableWord 32 0 = none ∧ decodeTableWord 8 255 = none := by decide

/-! ### Construction: V-F6 to V-F11, and the image -/

theorem test_boot_refuses : State.boot ⟨15, 100, 14⟩ [] = .error .configuration ∧
    State.boot ⟨257, 100, 15⟩ [] = .error .configuration ∧ State.boot ⟨16, 100, 16⟩ [] = .error .configuration ∧
    State.boot ⟨16, 0, 15⟩ [] = .error .configuration ∧
    State.boot ⟨16, 2147483648, 15⟩ [] = .error .configuration := by decide
theorem test_boot_least_memory : (State.boot ⟨16, 1, 15⟩ []).toOption.map (fun s => (s.memSize, s.pc, s.run)) =
    some (1, 0, .running) := by decide
theorem test_boot_image : (State.boot ⟨16, 100, 15⟩ [(80, .text ['o', 'k']), (0, .record ⟨"halt", []⟩)]).toOption.map
    State.mem = some [(0, .instr .halt), (80, .text ['o', 'k'])] := by decide
theorem test_boot_bad_record : State.boot ⟨16, 100, 15⟩ [(0, .record ⟨"push", []⟩)] =
    .error (.construction ⟨"push", .arity⟩) := by decide

/-! ### The accessor: V-E11 to V-E20 -/

theorem test_ea : ea (ind 1 2) (st [(1, .int 50)] []) = .ok 52 (st [(1, .int 50)] []) ∧
    ea (ind 1 1) (st [(1, .int 2147483647)] []) = .ok 0x80000000 (st [(1, .int 2147483647)] []) := by decide
theorem test_ea_base : ea (ind 1 0) (st [] []) = .err (.typeMismatch .ea .unset) (st [] []) ∧
    ea (ind 1 0) (st [(1, .text ['a'])] []) = .err (.typeMismatch .ea .text) (st [(1, .text ['a'])] []) := by decide
theorem test_resolve_lazy : resolve (r 3) (st [] []) = .ok (.int 0) (st [(3, .int 0)] []) ∧
    resolve (ind 1 2) (st [(1, .int 50)] []) = .ok (.int 0) (st [(1, .int 50)] [(52, .int 0)]) := by decide
theorem test_assign : assign .moveDst (r 2) (.instr .halt) (st [] []) = .err (.typeMismatch .moveDst .instr) (st [] []) ∧
    assign .moveDst (ind 1 0) (.text ['h']) (st [(1, .int 50)] []) =
      .ok () (st [(1, .int 50)] [(50, .text ['h'])]) := by decide

/-! ### Arithmetic: V-A2, V-A8, V-A12, V-A14, V-A17, V-A18, V-A21, V-A22 -/

theorem test_add_wraps : after (.add (r 0) (r 1) (r 2)) (st [(1, .int 2147483647), (2, .int 1)] []) (·.regs[0]?) =
    some (some (.int 0x80000000)) := by decide
theorem test_add_checks_after_both_reads :
    after (.add (r 0) (r 1) (r 2)) (st [(1, .text ['a'])] []) (fun t => (t.run, t.regs[2]?)) =
      some (.faulted (.typeMismatch .addSrc1 .text), some (.int 0)) := by decide
theorem test_mul_low_bits : after (.mul (r 0) (r 1) (r 2)) (st [(1, .int (-1)), (2, .int 0x80000000)] [])
    (·.regs[0]?) = some (some (.int 0x80000000)) := by decide
theorem test_mul_signed : after (.mul (r 0) (r 1) (r 2)) (st [(1, .int (-3)), (2, .int 4)] []) (·.regs[0]?) =
    some (some (.int (-12))) := by decide
theorem test_increment_unset : after (.increment (r 4)) (st [] []) (·.regs[4]?) = some (some (.int 1)) := by decide
theorem test_increment_wraps : after (.increment (r 4)) (st [(4, .int 2147483647)] []) (·.regs[4]?) =
    some (some (.int 0x80000000)) := by decide
theorem test_decrement_unset : after (.decrement (r 4)) (st [] []) (·.regs[4]?) = some (some (.int (-1))) := by decide
theorem test_decrement_wraps : after (.decrement (r 4)) (st [(4, .int 0x80000000)] []) (·.regs[4]?) =
    some (some (.int 2147483647)) := by decide

/-! ### Data movement: V-M2, V-M4, V-M14, V-M15 -/

theorem test_load_copies_unset : after (.load (r 3) 41) (st [(3, .int 5)] []) (fun t => (t.regs[3]?, t.mem.read 41)) =
    some (some .unset, .unset) := by decide
theorem test_load_refuses_record : after (.load (r 2) 0) (st [] []) (·.run) =
    some (.faulted (.typeMismatch .loadDst .instr)) := by decide
theorem test_move_base_after_source : after (.move (ind 1 0) (.reg (r 1))) (st [] [])
    (fun t => (t.regs[1]?, t.mem.read 0)) = some (some (.int 0), .int 0) := by decide
theorem test_move_copies_record : after (.move (ind 2 0) (.reg (ind 1 0)))
    (st [(1, .int 50), (2, .int 60)] [(50, .instr .halt)]) (fun t => (t.mem.read 60, t.pc)) =
      some (.instr .halt, 1) := by decide

/-! ### Stack and calls: V-S4, V-S7, V-S12, V-S14, V-S16, V-S17, V-S20, V-S26 -/

theorem test_push_at_zero : after (.push (r 2)) (stAt 9 [(2, .int 1), (15, .int 0)] [])
    (fun t => (t.mem.read 0, t.regs[15]?)) = some (.int 1, some (.int (-1))) := by decide
theorem test_push_unset_sp : after (.push (r 15)) (stAt 9 [] []) (fun t => (t.mem.read 0, t.regs[15]?)) =
    some (.int 0, some (.int (-1))) := by decide
theorem test_pop_copies_unset : after (.pop (r 3)) (st [(3, .int 5), (15, .int 98)] [])
    (fun t => (t.regs[3]?, t.regs[15]?)) = some (some .unset, some (.int 99)) := by decide
theorem test_pop_sp : after (.pop (r 15)) (st [(15, .int 49)] [(50, .int 7)]) (·.regs[15]?) =
    some (some (.int 7)) := by decide
theorem test_call_saves_own_address : after (.call 5) (stAt 1 [(15, .int 99)] []) (fun t => (t.mem.read 99, t.pc)) =
    some (.int 1, 5) := by decide
theorem test_call_zero : after (.call 0) (stAt 3 [(15, .int 99)] []) (fun t => (t.run, t.mem.read 99)) =
    some (.faulted (.negativePC (-1)), .int 3) := by decide
theorem test_ret_resumes_after_call : after .ret (st [(15, .int 98)] [(99, .int 1)]) (fun t => (t.regs[15]?, t.pc)) =
    some (some (.int 99), 2) := by decide
theorem test_ret_wraps_pc : after .ret (st [(15, .int 98)] [(99, .int 2147483647)]) (fun t => (t.run, t.pc)) =
    some (.running, 0x80000000) := by decide

/-! ### Control and comparison: V-C1, V-C2, V-Q3, V-Q4 -/

theorem test_jump : after (.jump 10) (stAt 3 [] []) (·.pc) = some 10 := by decide
theorem test_jump_zero : after (.jump 0) (stAt 3 [] []) (fun t => (t.run, t.pc)) =
    some (.faulted (.negativePC (-1)), 3) := by decide
theorem test_testEquals_unset : after (.testEquals (r 1) (r 2)) (st [] []) (fun t => (t.flag, t.regs[2]?)) =
    some (true, some (.int 0)) := by decide
theorem test_testEquals_kinds : after (.testEquals (r 1) (r 2)) { st [(1, .int 0), (2, .text ['0'])] [] with flag := true }
    (·.flag) = some false := by decide

/-! ### Input, output, halt: V-O3, V-O4, V-O13 to V-O19, V-O20, V-O23 to V-O25 -/

theorem test_echo_least : after (.echo (r 0)) (st [(0, .int 0x80000000)] []) (·.out) =
    some ['-', '2', '1', '4', '7', '4', '8', '3', '6', '4', '8'] := by decide
theorem test_echo_unset : after (.echo (r 0)) (st [] []) (fun t => (t.out, t.regs[0]?)) =
    some (['0'], some (.int 0)) := by decide
theorem test_parse_accepts : parseInt32 ['+', '5'] = some 5 ∧ parseInt32 ['0', '0', '7'] = some 7 ∧
    parseInt32 ['-', '2', '1', '4', '7', '4', '8', '3', '6', '4', '8'] = some 0x80000000 := by decide
theorem test_parse_refuses : parseInt32 [] = none ∧ parseInt32 ['-'] = none ∧ parseInt32 [' ', '4', '2'] = none ∧
    parseInt32 ['2', '1', '4', '7', '4', '8', '3', '6', '4', '8'] = none := by decide
theorem test_input_failed_parse_checks_no_address :
    after (.input 100) { stIn [.line ['x']] [] with flag := true } (fun t => (t.run, t.flag)) =
      some (.running, false) := by decide
theorem test_input_end : after (.input 60) (stIn [.endOfInput] []) (·.run) =
    some (.faulted .inputChannelFailure) := by decide
theorem test_halt_keeps_pc : after .halt (stAt 4 [] []) (fun t => (t.run, t.pc)) = some (.halted, 4) := by decide

/-! ### The loop: V-F1 to V-F5 -/

theorem test_fetch_kinds : seen (·.run) (step (stAt 2 [] [(2, .int 3)])) = some (.faulted (.notAnInstruction 2 .int)) ∧
    seen (·.run) (step (stAt 2 [] [])) = some (.faulted (.notAnInstruction 2 .unset)) := by decide
theorem test_fetch_range : seen (fun t => (t.run, t.pc)) (step (stAt 0x80000000 [] [])) =
    some (.faulted (.memoryOutOfRange 0x80000000), 0x80000000) := by decide
theorem test_step_keeps_its_record : after (.move (ind 1 0) (.num 0)) (stAt 1 [(1, .int 1)] [])
    (fun t => (t.mem.read 1, t.pc)) = some (.int 0, 2) := by decide
theorem test_reset_step : seen (·.run) (step State.reset) = some (.faulted (.notAnInstruction 0 .unset)) := by decide

/-! ### Witnesses: states and operands that meet the hypotheses of each statement, clause by clause, at the ends of the
ranges. Each is named after its statement. -/

/-- An instruction whose execution answers a next state, seen through `f`. -/
def runs {α : Type} (i : Instr) (s : State) (f : State → α) : Option α := seen f (exec i s)

theorem witness_DescriptorEncoderRoundTrip : ((255 : Nat) ≤ 255 ∧ (-32768 : Int) ≤ -32768 ∧ (-32768 : Int) ≤ 32767) ∧
    ((0 : Nat) ≤ 255 ∧ (-32768 : Int) ≤ 32767 ∧ (32767 : Int) ≤ 32767) := by decide
theorem witness_UnusedDescriptorBitsHaveNoEffect :
    (0xFFFFFFFF : Desc).toNat % 2 ^ 25 = (0x01FFFFFF : Desc).toNat % 2 ^ 25 ∧
    (Desc.ind 0xFE7FFF05 = false ∧ Desc.ind 5 = false ∧ Desc.idx 0xFE7FFF05 = Desc.idx 5) := by decide
theorem witness_DecodeOfEncodeIsIdentity : (Instr.add 0xFEFFFFFF 0 255).wf = true ∧
    (Instr.move 0xFFFFFFFF (.num 0x80000000)).wf = true ∧ (Instr.jump 0x7FFFFFFF).wf = true := by decide
theorem witness_EncodeOfDecodeIsIdentity :
    decode ⟨"load", [.reg 0xFEFFFFFF, .num (-2147483648)]⟩ = .ok (.load 0xFEFFFFFF 0x80000000) := by decide
theorem witness_ConstructionCheck_name : ∀ op : Opcode, op.name ≠ (⟨"jmp", [.num 3]⟩ : RawInstr).name := by
  intro op; cases op <;> decide
theorem witness_ConstructionCheck_args :
    ([] : List Arg).length ≠ Opcode.push.positions.length ∧
    firstArgError 1 Opcode.jump.positions [.num 2147483648] = some (.literalRange 1) ∧
    firstArgError 1 Opcode.jump.positions [.num 2147483647] = none ∧
    firstArgError 1 Opcode.move.positions [.reg 0, .num (-2147483649)] = some (.literalRange 2) ∧
    firstArgError 1 Opcode.move.positions [.reg 0xFFFFFFFF, .num (-2147483648)] = none := by decide
theorem witness_TextArgumentsAreNeverBuilt : Arg.txt ['x'] ∈ (⟨"move", [.reg 0, .txt ['x']]⟩ : RawInstr).args := by
  decide

/-- An image with a cell filled twice. -/
def image : List (Nat × ImageItem) := [(99, .int 1), (0, .record ⟨"halt", []⟩), (99, .text ['k'])]

theorem witness_NewMachineHoldsResetValues :
    (∃ s, State.boot ⟨16, 100, 15⟩ image = .ok s) ∧ (∀ x, ((1 : Nat), x) ∉ image) ∧
    image = [(99, .int 1), (0, .record ⟨"halt", []⟩)] ++ (99, .text ['k']) :: [] ∧
    ∀ y, ((99 : Nat), y) ∉ ([] : List (Nat × ImageItem)) :=
  ⟨⟨_, rfl⟩, by simp [image], rfl, by simp⟩
theorem witness_NewMachineMeetsInvariant : ∃ s, State.boot ⟨256, 2147483647, 255⟩ image = .ok s := ⟨_, rfl⟩
theorem witness_ConfigurationsOutOfBoundsAreRefused :
    15 < 16 ∧ 16 ≤ 16 ∧ 256 < 257 ∧ 2 ^ 31 - 1 < 2147483648 ∧
    ¬(256 < 16 ∨ 256 ≤ 255 ∨ 2147483647 = 0 ∨ 256 < 256 ∨ 2 ^ 31 - 1 < 2147483647) ∧
    ¬(16 < 16 ∨ 16 ≤ 15 ∨ 1 = 0 ∨ 256 < 16 ∨ 2 ^ 31 - 1 < 1) := by decide

/-- A machine about to fetch `i` from the last cell of its memory. -/
def last (i : Instr) : State := stAt 99 [] [(99, .instr i)]

theorem witness_StepRunsTheFetchedInstruction :
    ((last (.jump 1)).run = .running ∧ (last (.jump 1)).InMem 99 ∧ (last (.jump 1)).cellAt 99 = .instr (.jump 1) ∧
      runs (.jump 1) (last (.jump 1)) (·.run) = some .running) ∧
    (runs .halt (last .halt) (·.run) = some .halted ∧
      runs (.jump 0) (last (.jump 0)) (·.run) = some (.faulted (.negativePC (-1)))) := by decide
theorem witness_StepRunsTheFetchedInstruction_wait : exec (.input 0) (last (.input 0)) = .fault .awaitingInput := rfl
theorem witness_FetchErrors :
    ¬(0 ≤ (stAt 100 [] []).pc.toInt ∧ (stAt 100 [] []).pc.toInt < (stAt 100 [] []).memSize) ∧
    ¬(0 ≤ (stAt 0x80000000 [] []).pc.toInt ∧ (stAt 0x80000000 [] []).pc.toInt < (stAt 0x80000000 [] []).memSize) ∧
    (0 ≤ (stAt 99 [] []).pc.toInt ∧ (stAt 99 [] []).pc.toInt < (stAt 99 [] []).memSize ∧
      (stAt 99 [] []).cellAt 99 = .unset) := by decide
theorem witness_EndedRunTakesNoStep : ({ State.reset with run := .halted } : State).run ≠ .running ∧
    (State.reset.raise .inputChannelFailure).run ≠ .running := by decide

theorem witness_EffectiveAddressRule : (st [] []).nRegs ≤ Desc.idx (ind 16 0) ∧ Desc.idx (ind 15 0) < (st [] []).nRegs ∧
    (st [] []).regs[Desc.idx (ind 1 0)]? = some .unset ∧
    (st [(1, .int 50)] []).regs[Desc.idx (ind 1 (-32768))]? = some (.int 50) := by decide
theorem witness_ResolveRule : (Desc.ind (r 16) = false ∧ (st [] []).nRegs ≤ Desc.idx (r 16)) ∧
    (Desc.ind (r 15) = false ∧ (st [] []).regs[Desc.idx (r 15)]? = some .unset) ∧
    (ea (ind 1 0) (st [] []) = .err (.typeMismatch .ea .unset) (st [] [])) ∧
    (ea (ind 1 2) (st [(1, .int 97)] []) = .ok 99 (st [(1, .int 97)] []) ∧ (st [(1, .int 97)] []).InMem 99 ∧
      (st [(1, .int 97)] []).cellAt 99 = .unset ∧ (st [(1, .int 97)] [(99, .int 5)]).cellAt 99 ≠ .unset) ∧
    (ea (ind 1 3) (st [(1, .int 97)] []) = .ok 100 (st [(1, .int 97)] []) ∧ ¬(st [(1, .int 97)] []).InMem 100) := by
  decide
theorem witness_ResolveIsIdempotent : resolve (ind 1 0) (st [(1, .int 0)] []) =
    .ok (.int 0) (st [(1, .int 0)] [(0, .int 0)]) := by decide

/-- The clauses of `add` and `mul`, whose hypotheses are the same: each source out of range, each source text, the
destination out of range, and none of these. -/
theorem witness_AddRule_MulRule : Desc.ind (r 1) = false ∧
    ((st [] []).nRegs ≤ Desc.idx (r 16) ∧ Desc.idx (r 15) < (st [] []).nRegs) ∧
    (st [(1, .text ['a'])] []).regs[Desc.idx (r 1)]? = some (.text ['a']) ∧
    ((st [(2, .text ['a'])] []).regs[Desc.idx (r 1)]? = some .unset ∧ Cell.unset.lazyZero = .int 0 ∧
      (st [(2, .text ['a'])] []).regs[Desc.idx (r 2)]? = some (.text ['a'])) ∧
    ((st [(1, .int 3)] []).regs[Desc.idx (r 1)]? = some (.int 3) ∧ (Cell.int 3).lazyZero = .int 3) := by decide
/-- The clauses of `increment` and `decrement`. -/
theorem witness_IncrementRule_DecrementRule : Desc.ind (r 4) = false ∧ (st [] []).nRegs ≤ Desc.idx (r 16) ∧
    (st [(4, .text ['x'])] []).regs[Desc.idx (r 4)]? = some (.text ['x']) ∧
    ((st [] []).regs[Desc.idx (r 15)]? = some .unset ∧ Cell.unset.lazyZero = .int 0) := by decide
theorem witness_LoadRule : Desc.ind (r 3) = false ∧ ¬(st [] []).InMem 100 ∧ ¬(st [] []).InMem (-1) ∧
    ((st [] []).InMem 99 ∧ (st [] []).nRegs ≤ Desc.idx (r 16)) ∧
    ((st [] [(0, .instr .halt)]).InMem 0 ∧ Desc.idx (r 15) < (st [] []).nRegs ∧
      (st [] [(0, .instr .halt)]).cellAt 0 = .instr .halt) ∧
    (st [] []).cellAt 99 = .unset := by decide

/-- `SourceGives` for the clauses of `move`: a source that fails, a record, a literal. -/
theorem witness_MoveRule_sources :
    resolve (ind 1 0) (st [] []) = .err (.typeMismatch .ea .unset) (st [] []) ∧
    SourceGives (.reg (ind 1 0)) (st [(1, .int 50)] [(50, .instr .halt)]) (.instr .halt)
      (st [(1, .int 50)] [(50, .instr .halt)]) ∧
    SourceGives (.num 7) (st [] []) (.int 7) (st [] []) := ⟨by decide, by simp only [SourceGives]; decide, rfl, rfl⟩
theorem witness_MoveRule_destinations : (Desc.ind (r 16) = false ∧ (st [] []).nRegs ≤ Desc.idx (r 16)) ∧
    (Desc.ind (r 15) = false ∧ Desc.idx (r 15) < (st [] []).nRegs) ∧
    ea (ind 1 0) (st [] []) = .err (.typeMismatch .ea .unset) (st [] []) ∧
    (ea (ind 1 1) (st [(1, .int 99)] []) = .ok 100 (st [(1, .int 99)] []) ∧ ¬(st [(1, .int 99)] []).InMem 100) ∧
    (ea (ind 1 0) (st [(1, .int 99)] []) = .ok 99 (st [(1, .int 99)] []) ∧ (st [(1, .int 99)] []).InMem 99) := by decide
theorem witness_MoveCompletesOnUsableOperands :
    SourceReads (.num 7) (st [(1, .int 50)] []) (.int 7) ∧ SourceReads (.reg (r 2)) (st [] []) (.int 0) ∧
    (Desc.ind (r 15) = false ∧ Desc.idx (r 15) < (st [] []).nRegs) ∧
    (Desc.ind (ind 1 49) = true ∧ (st [(1, .int 50)] []).regs[Desc.idx (ind 1 49)]? = some (.int 50) ∧
      (st [(1, .int 50)] []).InMem (50 + Desc.off (ind 1 49))) :=
  ⟨rfl, ⟨.unset, .inl (by decide), rfl⟩, by decide, by decide⟩
/-- V-M14: the never-written base register is the one the source reads. -/
theorem witness_MoveCompletesOnUsableOperands_lazy_base :
    SourceReads (.reg (r 1)) (st [] []) (.int 0) ∧ Desc.ind (ind 1 99) = true ∧
    ((st [] []).regs[Desc.idx (ind 1 99)]? = some .unset ∧ (0 : Word) = 0 ∧
      ∃ d, MoveSrc.reg (r 1) = .reg d ∧ Desc.ind d = false ∧ Desc.idx d = Desc.idx (ind 1 99)) ∧
    (st [] []).InMem (0 + Desc.off (ind 1 99)) :=
  ⟨⟨.unset, .inl (by decide), rfl⟩, by decide, ⟨by decide, rfl, r 1, rfl, by decide, by decide⟩, by decide⟩

/-- The clauses of `push`: the register out of range, the stack pointer never written, out of range at either end, and
in range at either end. -/
theorem witness_PushRule : Desc.ind (r 2) = false ∧ (st [] []).nRegs ≤ Desc.idx (r 16) ∧
    ((st [] []).regs[Desc.idx (r 2)]? = some .unset ∧ (st [] []).regs[(st [] []).spIndex]? = some .unset) ∧
    ((st [(15, .int (-1))] []).regs[15]? = some (.int (-1)) ∧ ¬(st [(15, .int (-1))] []).InMem (-1) ∧
      ¬(st [(15, .int 100)] []).InMem 100) ∧
    ((st [(15, .int 0)] []).InMem 0 ∧ (st [(15, .int 99)] []).InMem 99) := by decide
/-- The clauses of `pop`. -/
theorem witness_PopRule : Desc.ind (r 3) = false ∧ (st [] []).regs[(st [] []).spIndex]? = some .unset ∧
    ((st [(15, .int 99)] []).regs[(st [] []).spIndex]? = some (.int 99) ∧ wrap ((99 : Word).toInt + 1) = 100 ∧
      ¬(st [(15, .int 99)] []).InMem 100) ∧
    (wrap ((98 : Word).toInt + 1) = 99 ∧ (st [(15, .int 98)] []).InMem 99 ∧ (st [] []).nRegs ≤ Desc.idx (r 16) ∧
      (st [(15, .int 98)] [(99, .instr .halt)]).cellAt 99 = .instr .halt ∧
      (st [(15, .int 98)] []).cellAt 99 = .unset) ∧
    (wrap ((-1 : Word).toInt + 1) = 0 ∧ (st [(15, .int (-1))] []).InMem 0) := by decide
/-- The clauses of `call`, with the targets at which they meet. -/
theorem witness_CallRule : (st [] []).regs[(st [] []).spIndex]? = some .unset ∧
    ((st [(15, .int 100)] []).regs[(st [] []).spIndex]? = some (.int 100) ∧ ¬(st [(15, .int 100)] []).InMem 100) ∧
    ((st [(15, .int 99)] []).InMem 99 ∧ (0 : Word).toInt ≤ 0 ∧ (0 : Word).toInt ≠ -2 ^ 31) ∧
    ((0x80000001 : Word).toInt ≤ 0 ∧ (0x80000001 : Word).toInt ≠ -2 ^ 31) ∧
    (1 ≤ (1 : Word).toInt ∧ 1 ≤ (0x7FFFFFFF : Word).toInt ∧ (0x80000000 : Word).toInt = -2 ^ 31) := by decide
/-- The clauses of `ret`. -/
theorem witness_RetRule : (st [] []).regs[(st [] []).spIndex]? = some .unset ∧
    (wrap ((99 : Word).toInt + 1) = 100 ∧ ¬(st [(15, .int 99)] []).InMem 100) ∧
    (wrap ((98 : Word).toInt + 1) = 99 ∧ (st [(15, .int 98)] []).InMem 99 ∧ (st [(15, .int 98)] []).cellAt 99 = .unset) ∧
    ((st [(15, .int 98)] [(99, .int (-1))]).cellAt 99 = .int (-1) ∧ (-1 : Word).toInt < 0) ∧
    ((st [(15, .int 98)] [(99, .int 0)]).cellAt 99 = .int 0 ∧ 0 ≤ (0 : Word).toInt ∧
      (st [] [(0, .instr .ret)]).InMem 0 ∧ (st [] [(0, .instr .ret)]).cellAt 0 = .instr .ret) := by decide
theorem witness_JumpRule : ((0 : Word).toInt ≤ 0 ∧ (0 : Word).toInt ≠ -2 ^ 31) ∧
    ((0x80000001 : Word).toInt ≤ 0 ∧ (0x80000001 : Word).toInt ≠ -2 ^ 31) ∧
    1 ≤ (1 : Word).toInt ∧ (0x80000000 : Word).toInt = -2 ^ 31 ∧
    ((last (.jump 1)).run = .running ∧ (last (.jump 1)).InMem (last (.jump 1)).pc ∧
      (last (.jump 1)).cellAt (last (.jump 1)).pc = .instr (.jump 1)) := by decide
theorem witness_TestEqualsRule : Desc.ind (r 1) = false ∧ (st [] []).nRegs ≤ Desc.idx (r 16) ∧
    Desc.idx (r 15) < (st [] []).nRegs ∧ (st [] []).regs[Desc.idx (r 15)]? = some .unset := by decide
theorem witness_EchoRule : resolve (ind 1 0) (st [] []) = .err (.typeMismatch .ea .unset) (st [] []) ∧
    resolve (r 0) (st [] []) = .ok (.int 0) (st [(0, .int 0)] []) ∧
    resolve (r 0) (st [(0, .text ['h'])] []) = .ok (.text ['h']) (st [(0, .text ['h'])] []) ∧
    resolve (ind 1 0) (st [(1, .int 50)] [(50, .instr .halt)]) =
      .ok (.instr .halt) (st [(1, .int 50)] [(50, .instr .halt)]) := by decide
theorem witness_EchoCompletesOnReadableOperands :
    NamesCell (r 0) (st [] []) .unset ∧ (∀ j, Cell.unset ≠ .instr j) ∧
    NamesCell (ind 1 49) (st [(1, .int 50)] [(99, .text ['h'])]) (.text ['h']) ∧ (∀ j, Cell.text ['h'] ≠ .instr j) ∧
    Cell.unset.lazyZero = .int 0 :=
  ⟨.inl (by decide), nofun, .inr ⟨by decide, 50, by decide⟩, nofun, rfl⟩

/-- The clauses of `input`: no answer, each failure, a line that is no integer, a line that is one at either end of the
address range. -/
theorem witness_InputRule_channel : (stIn [] []).input = [] ∧
    (stIn [.endOfInput] []).input = .endOfInput :: [] ∧ (stIn [.channelError] []).input = .channelError :: [] ∧
    (stIn [.line ['7']] []).input = .line ['7'] :: [] ∧ ¬(stIn [.line ['7']] []).InMem 100 ∧
    (stIn [.line ['7']] []).InMem 99 ∧ (stIn [.line ['7']] []).InMem 0 := by decide
theorem witness_InputRule_integer : IsIntegerLine ['7'] (7 : Word).toInt :=
  ⟨[], ['7'], .inl rfl, rfl, ⟨by decide, fun c hc => by rw [List.mem_singleton.mp hc]; decide⟩, by decide⟩
theorem witness_InputRule_no_integer : ¬ ∃ n : Word, IsIntegerLine [] n.toInt := by
  rintro ⟨n, sign, ds, -, h, ⟨hne, -⟩, -⟩
  exact hne (List.append_eq_nil_iff.mp h.symm).2
theorem witness_HaltRule : (last .halt).run = .running ∧ (last .halt).InMem (last .halt).pc ∧
    (last .halt).cellAt (last .halt).pc = .instr .halt ∧ ({ last .halt with run := .halted } : State).run = .halted := by
  decide

/-- A machine with a stack that calls a subroutine, for the statements about a step from a state with the invariant. -/
def calling : State := stAt 1 [(15, .int 99)] [(1, .instr (.call 5)), (5, .instr .ret)]

theorem witness_StepKeepsInvariant : calling.Inv ∧ ∃ t, step calling = .next t :=
  ⟨⟨by decide, by decide, by decide, by decide, by decide⟩, _, rfl⟩
theorem witness_StepKeepsConfiguration : ∃ t, step calling = .next t := ⟨_, rfl⟩
theorem witness_FlagIsWrittenByTwoAndReadByNone :
    (¬ Instr.halt.WritesFlag ∧ ∃ t, exec .halt State.reset = .next t) ∧
    ((Instr.testEquals (r 1) (r 2)).WritesFlag ∧
      ∃ t, exec (.testEquals (r 1) (r 2)) State.reset = .next t ∧ ∀ e, t.run ≠ .faulted e) :=
  ⟨⟨id, _, rfl⟩, trivial, _, rfl, fun _ h => by cases h⟩
theorem witness_NextFetchAddress_plain : (last (.increment (r 0))).run = .running ∧
    (last (.increment (r 0))).InMem (last (.increment (r 0))).pc ∧
    (last (.increment (r 0))).cellAt (last (.increment (r 0))).pc = .instr (.increment (r 0)) ∧
    runs (.increment (r 0)) (last (.increment (r 0))) (·.run) = some .running ∧
    runs .halt (last .halt) (·.run) = some .halted := by decide
theorem witness_NextFetchAddress_transfers : runs (.call 5) calling (·.run) = some .running ∧
    runs (.jump 1) (last (.jump 1)) (·.run) = some .running ∧
    runs .ret (stAt 5 [(15, .int 98)] [(5, .instr .ret), (99, .int 0)]) (·.run) = some .running := by decide
theorem witness_TransfersNeverReachAddressZero : calling.cellAt calling.pc = .instr (.call 5) ∧
    seen (·.run) (step calling) = some .running ∧
    (last (.jump 0x80000000)).cellAt 99 = .instr (.jump 0x80000000) ∧
    seen (·.run) (step (last (.jump 0x80000000))) = some .running := by decide
theorem witness_OutputOnlyGrowsByEcho : ¬ Instr.halt.IsEcho ∧ (∃ t, exec .halt State.reset = .next t) ∧
    ∃ t, step (last (.echo (r 0))) = .next t := ⟨id, ⟨_, rfl⟩, _, rfl⟩
theorem witness_AnswersAreTakenInOrderByInput : (¬ Instr.halt.IsInput ∧ ∃ t, exec .halt State.reset = .next t) ∧
    (Instr.input 0).IsInput ∧ ∃ t, exec (.input 0) (stIn [.endOfInput] []) = .next t :=
  ⟨⟨id, _, rfl⟩, trivial, _, rfl⟩
theorem witness_WrittenMemoryStaysWritten : (∃ t, step calling = .next t) ∧ calling.mem.read 5 ≠ .unset :=
  ⟨⟨_, rfl⟩, by decide⟩
theorem witness_StepBuildsNoNewRecord : calling.RegsHoldData ∧ ∃ t, step calling = .next t ∧
    t.mem.read 5 = .instr .ret := ⟨by decide, _, rfl, rfl⟩
theorem witness_OnlyUnansweredInputWaits : (stIn [] []).input = [] ∧ (Instr.input 60).IsInput := ⟨rfl, trivial⟩
theorem witness_RunningMachineSteps : (calling.run = .running ∧ ∀ a, calling.cellAt calling.pc ≠ .instr (.input a)) ∧
    (stIn [.endOfInput] []).input ≠ [] := ⟨⟨by decide, fun a h => by cases h⟩, by decide⟩
theorem witness_ErrorKeepsPcAndEarlierWrites :
    (runs (.jump 0) State.reset (·.run) = some (.faulted (.negativePC (-1))) ∧ State.reset.run = .running) ∧
    ((st [(15, .int 99)] []).regs[(st [] []).spIndex]? = some (.int 99) ∧ ¬(st [(15, .int 99)] []).InMem (99 + 1)) ∧
    ((st [(15, .int 99)] []).InMem 99 ∧ ((0 : Word) - 1).toInt < 0) := by decide
/-- Instructions that end in an error after a write: V-A8, V-S5, V-Q8, V-S15, V-S22, V-S17, and `input` at the end of
input. -/
theorem witness_ErrorKeepsPcAndEarlierWrites_every_instruction :
    runs (.add (r 0) (r 1) (r 2)) (st [(1, .text ['a'])] []) (·.run) = some (.faulted (.typeMismatch .addSrc1 .text)) ∧
    runs (.push (r 2)) (st [(15, .int (-1))] []) (·.run) = some (.faulted (.memoryOutOfRange (-1))) ∧
    runs (.testEquals (r 1) (r 16)) (st [] []) (·.run) = some (.faulted (.registerOutOfRange 16)) ∧
    runs (.pop (r 3)) (st [(15, .int 98)] [(99, .instr .halt)]) (·.run) = some (.faulted (.typeMismatch .popDst .instr)) ∧
    runs .ret (st [(15, .int 98)] [(99, .int (-3))]) (·.run) = some (.faulted (.negativePC (-3))) ∧
    runs (.call 0) (stAt 3 [(15, .int 99)] []) (·.run) = some (.faulted (.negativePC (-1))) ∧
    runs (.input 60) (stIn [.endOfInput] []) (·.run) = some (.faulted .inputChannelFailure) := by decide
/-- The writes that those vectors give, and a `move` whose indirect source is zeroed before its destination fails. -/
theorem test_writtenBeforeError :
    writtenBeforeError (.add (r 0) (r 1) (r 2)) (st [(1, .text ['a'])] []) = st [(1, .text ['a']), (2, .int 0)] [] ∧
    writtenBeforeError (.push (r 2)) (st [(15, .int (-1))] []) = st [(2, .int 0), (15, .int (-1))] [] ∧
    writtenBeforeError (.testEquals (r 1) (r 16)) (st [] []) = st [(1, .int 0)] [] ∧
    writtenBeforeError (.pop (r 3)) (st [(15, .int 98)] [(99, .instr .halt)]) =
      st [(15, .int 99)] [(99, .instr .halt)] ∧
    writtenBeforeError .ret (st [(15, .int 98)] [(99, .int (-3))]) = st [(15, .int 99)] [(99, .int (-3))] ∧
    writtenBeforeError (.call 0) (stAt 3 [(15, .int 99)] []) = stAt 3 [(15, .int 98)] [(99, .int 3)] ∧
    writtenBeforeError (.move (r 16) (.reg (ind 1 2))) (st [(1, .int 50)] []) = st [(1, .int 50)] [(52, .int 0)] := by
  decide
theorem witness_PushThenPopRestores : Desc.ind (r 2) = false ∧ Desc.ind (r 3) = false ∧
    (st [(15, .int 0)] []).regs[Desc.idx (r 2)]? = some .unset ∧ (∀ j, Cell.unset ≠ .instr j) ∧
    (st [(15, .int 0)] []).regs[(st [] []).spIndex]? = some (.int 0) ∧ (st [(15, .int 0)] []).InMem 0 ∧
    Desc.idx (r 3) < (st [] []).nRegs ∧ Desc.idx (r 3) ≠ (st [] []).spIndex :=
  ⟨by decide, by decide, by decide, nofun, by decide, by decide, by decide, by decide⟩
theorem witness_CallThenRetReturns : calling.run = .running ∧ calling.InMem calling.pc ∧
    calling.cellAt calling.pc = .instr (.call 5) ∧ 1 ≤ (5 : Word).toInt ∧ calling.InMem 5 ∧
    calling.cellAt 5 = .instr .ret ∧ calling.regs[calling.spIndex]? = some (.int 99) ∧ calling.InMem 99 ∧
    (99 : Word) ≠ 5 := by decide
theorem witness_JumpToItselfHangs : (last (.jump 99)).run = .running ∧ (last (.jump 99)).InMem (last (.jump 99)).pc ∧
    (last (.jump 99)).pc ≠ 0 ∧ (last (.jump 99)).cellAt (last (.jump 99)).pc = .instr (.jump 99) := by decide
theorem witness_EqualMemoriesAreEqualData : Memory.wf [(0, .int 0), (99, .instr .halt)] ∧
    ∀ a, Memory.read [(0, .int 0), (99, .instr .halt)] a = Memory.read [(0, .int 0), (99, .instr .halt)] a :=
  ⟨by decide, fun _ => rfl⟩

end Sys2Proof.Tests
end

section
/-! The construction check: what a record that is built looks like (spec/30_encoding.md R82, R92). -/

namespace Sys2Proof

/-! ### A check that answers a value -/

theorem Except.map_eq_ok {ε α β : Type} {f : α → β} {x : Except ε α} {b : β} (h : x.map f = .ok b) :
    ∃ a, x = .ok a ∧ f a = b := by
  cases x with
  | ok a => cases h; exact ⟨a, rfl, rfl⟩
  | error e => cases h

theorem Except.mapError_eq_ok {ε ε' α : Type} {f : ε → ε'} {x : Except ε α} {a : α} (h : x.mapError f = .ok a) :
    x = .ok a := by
  cases x with
  | ok b => cases h; rfl
  | error e => cases h

theorem Except.bind_eq_ok {ε α β : Type} {x : Except ε α} {f : α → Except ε β} {b : β} (h : x.bind f = .ok b) :
    ∃ a, x = .ok a ∧ f a = .ok b := by
  cases x with
  | ok a => exact ⟨a, rfl, h⟩
  | error e => cases h

/-! ### One inversion per format (R82) -/

theorem buildNone_ok {i j : Instr} {args : List Arg} (h : buildNone i args = .ok j) : args = [] ∧ j = i := by
  cases args with
  | nil => cases h; exact ⟨rfl, rfl⟩
  | cons a as => cases h

theorem buildR_ok {mk : Desc → Instr} {args : List Arg} {i : Instr} (h : buildR mk args = .ok i) :
    ∃ d, args = [.reg d] ∧ Desc.ind d = false ∧ i = mk d := by
  match args, h with
  | [a], h =>
    obtain ⟨d, ha, rfl⟩ := Except.map_eq_ok h
    obtain ⟨rfl, hd⟩ := takeR_ok ha
    exact ⟨d, rfl, hd, rfl⟩

theorem buildD_ok {mk : Desc → Instr} {args : List Arg} {i : Instr} (h : buildD mk args = .ok i) :
    ∃ d, args = [.reg d] ∧ i = mk d := by
  match args, h with
  | [a], h =>
    obtain ⟨d, ha, rfl⟩ := Except.map_eq_ok h
    exact ⟨d, by rw [takeD_ok ha], rfl⟩

theorem buildN_ok {mk : Word → Instr} {args : List Arg} {i : Instr} (h : buildN mk args = .ok i) :
    ∃ n, args = [.num n.toInt] ∧ i = mk n := by
  match args, h with
  | [a], h =>
    obtain ⟨n, ha, rfl⟩ := Except.map_eq_ok h
    exact ⟨n, by rw [takeN_ok ha], rfl⟩

theorem buildRN_ok {mk : Desc → Word → Instr} {args : List Arg} {i : Instr} (h : buildRN mk args = .ok i) :
    ∃ d n, args = [.reg d, .num n.toInt] ∧ Desc.ind d = false ∧ i = mk d n := by
  match args, h with
  | [a, b], h =>
    obtain ⟨d, ha, h⟩ := Except.bind_eq_ok h
    obtain ⟨n, hb, rfl⟩ := Except.map_eq_ok h
    obtain ⟨rfl, hd⟩ := takeR_ok ha
    exact ⟨d, n, by rw [takeN_ok hb], hd, rfl⟩

theorem buildRR_ok {mk : Desc → Desc → Instr} {args : List Arg} {i : Instr} (h : buildRR mk args = .ok i) :
    ∃ d e, args = [.reg d, .reg e] ∧ Desc.ind d = false ∧ Desc.ind e = false ∧ i = mk d e := by
  match args, h with
  | [a, b], h =>
    obtain ⟨d, ha, h⟩ := Except.bind_eq_ok h
    obtain ⟨e, hb, rfl⟩ := Except.map_eq_ok h
    obtain ⟨rfl, hd⟩ := takeR_ok ha
    obtain ⟨rfl, he⟩ := takeR_ok hb
    exact ⟨d, e, rfl, hd, he, rfl⟩

theorem buildRRR_ok {mk : Desc → Desc → Desc → Instr} {args : List Arg} {i : Instr} (h : buildRRR mk args = .ok i) :
    ∃ d e f, args = [.reg d, .reg e, .reg f] ∧ Desc.ind d = false ∧ Desc.ind e = false ∧ Desc.ind f = false ∧
      i = mk d e f := by
  match args, h with
  | [a, b, c], h =>
    obtain ⟨d, ha, h⟩ := Except.bind_eq_ok h
    obtain ⟨e, hb, h⟩ := Except.bind_eq_ok h
    obtain ⟨f, hc, rfl⟩ := Except.map_eq_ok h
    obtain ⟨rfl, hd⟩ := takeR_ok ha
    obtain ⟨rfl, he⟩ := takeR_ok hb
    obtain ⟨rfl, hf⟩ := takeR_ok hc
    exact ⟨d, e, f, rfl, hd, he, hf, rfl⟩

theorem buildMov_ok {mk : Desc → MoveSrc → Instr} {args : List Arg} {i : Instr} (h : buildMov mk args = .ok i) :
    ∃ d m, args = [.reg d, m.arg] ∧ i = mk d m := by
  match args, h with
  | [a, b], h =>
    obtain ⟨d, ha, h⟩ := Except.bind_eq_ok h
    obtain ⟨m, hb, rfl⟩ := Except.map_eq_ok h
    exact ⟨d, m, by rw [takeD_ok ha, takeMoveSrc_ok hb], rfl⟩

/-- What the builder of an opcode's format answers has that opcode and those arguments, and is well formed. -/
theorem construct_ok {op : Opcode} {args : List Arg} {i : Instr} (h : construct op args = .ok i) :
    i.opcode = op ∧ i.args = args ∧ i.wf = true := by
  cases op with
  | add | mul =>
    obtain ⟨d, e, f, rfl, hd, he, hf, rfl⟩ := buildRRR_ok h
    exact ⟨rfl, rfl, by simp [Instr.wf, hd, he, hf]⟩
  | increment | decrement | push | pop =>
    obtain ⟨d, rfl, hd, rfl⟩ := buildR_ok h
    exact ⟨rfl, rfl, by simp [Instr.wf, hd]⟩
  | load =>
    obtain ⟨d, n, rfl, hd, rfl⟩ := buildRN_ok h
    exact ⟨rfl, rfl, by simp [Instr.wf, hd]⟩
  | move => obtain ⟨d, m, rfl, rfl⟩ := buildMov_ok h; exact ⟨rfl, rfl, rfl⟩
  | call | jump | input => obtain ⟨n, rfl, rfl⟩ := buildN_ok h; exact ⟨rfl, rfl, rfl⟩
  | ret | halt => obtain ⟨rfl, rfl⟩ := buildNone_ok h; exact ⟨rfl, rfl, rfl⟩
  | testEquals =>
    obtain ⟨d, e, rfl, hd, he, rfl⟩ := buildRR_ok h
    exact ⟨rfl, rfl, by simp [Instr.wf, hd, he]⟩
  | echo => obtain ⟨d, rfl, rfl⟩ := buildD_ok h; exact ⟨rfl, rfl, rfl⟩

/-- A record decodes only through the builder of the opcode it names. -/
theorem decode_ok {r : RawInstr} {i : Instr} (h : decode r = .ok i) :
    ∃ op, Opcode.ofName r.name = some op ∧ construct op r.args = .ok i := by
  cases hop : Opcode.ofName r.name with
  | none => rw [decode_none hop] at h; cases h
  | some op => rw [decode_some hop] at h; exact ⟨op, rfl, Except.mapError_eq_ok h⟩

/-- The construction check lets only well-formed records exist (R92). -/
theorem decode_wf {r : RawInstr} {i : Instr} (h : decode r = .ok i) : i.wf = true := by
  obtain ⟨op, -, hc⟩ := decode_ok h
  obtain ⟨-, -, hwf⟩ := construct_ok hc
  exact hwf

end Sys2Proof
end

section
/-! Construction and loading: which configurations make a machine, and what the loader puts in its memory
(spec/00_scope.md R10, R17; spec/70_reset_and_hazards.md R190). -/

namespace Sys2Proof.Machine

/-! ### The configuration -/

/-- R10 lists the ways to be outside the bounds; being legal is being outside in none of them. -/
theorem Config.not_legal_iff (c : Config) :
    ¬ c.Legal ↔ c.nRegs < 16 ∨ c.nRegs ≤ c.spIndex ∨ c.memSize = 0 ∨ 256 < c.nRegs ∨ 2 ^ 31 - 1 < c.memSize := by
  unfold Config.Legal
  omega

theorem Config.reference_legal : Config.reference.Legal := by decide

theorem State.boot_of_not_legal {c : Config} (h : ¬ c.Legal) (image : List (Nat × ImageItem)) :
    State.boot c image = .error .configuration := if_neg h

theorem State.boot_of_legal {c : Config} (h : c.Legal) (image : List (Nat × ImageItem)) :
    State.boot c image = (loadImage c.memSize image []).map (State.fresh c) := if_pos h

/-- With nothing to load, a legal configuration makes a machine. -/
theorem State.boot_nil {c : Config} (h : c.Legal) : State.boot c [] = .ok (State.fresh c []) :=
  State.boot_of_legal h []

/-- A machine that starts has a legal configuration and is the new machine with the loaded memory. -/
theorem State.boot_ok {c : Config} {image : List (Nat × ImageItem)} {s : State} (h : State.boot c image = .ok s) :
    c.Legal ∧ ∃ m, loadImage c.memSize image [] = .ok m ∧ s = State.fresh c m := by
  by_cases hc : c.Legal
  · rw [State.boot_of_legal hc] at h
    obtain ⟨m, hm, rfl⟩ := Except.map_eq_ok h
    exact ⟨hc, m, hm, rfl⟩
  · rw [State.boot_of_not_legal hc] at h; cases h

theorem reset_eq_fresh : State.reset = State.fresh Config.reference [] := rfl

/-! ### The image -/

/-- Loading goes on past an item only if its address is in memory and its cell can be built. -/
theorem loadImage_cons_ok {n a : Nat} {x : ImageItem} {image : List (Nat × ImageItem)} {m m' : Memory}
    (h : loadImage n ((a, x) :: image) m = .ok m') :
    a < n ∧ ∃ c, x.cell = .ok c ∧ loadImage n image (m.write a c) = .ok m' := by
  simp only [loadImage] at h
  split at h
  next ha => exact ⟨ha, Except.bind_eq_ok h⟩
  next => cases h

/-- What holds of every entry before a write and of the written one holds of every entry after it. -/
theorem Memory.forall_write {P : Nat × Cell → Prop} {m : Memory} {a : Nat} {c : Cell} (hm : ∀ e ∈ m, P e)
    (hac : P (a, c)) : ∀ e ∈ m.write a c, P e := fun e he => by
  rcases Memory.mem_write he with rfl | he
  · exact hac
  · exact hm e he

/-- What holds of every entry before loading and of every cell that an item can put in memory holds of every entry
after it. -/
theorem loadImage_forall {P : Nat × Cell → Prop} {n : Nat}
    (hP : ∀ a x c, a < n → ImageItem.cell x = .ok c → P (a, c)) {image : List (Nat × ImageItem)} {m m' : Memory}
    (hm : ∀ e ∈ m, P e) (h : loadImage n image m = .ok m') : ∀ e ∈ m', P e := by
  induction image generalizing m with
  | nil => cases h; exact hm
  | cons e image ih =>
    obtain ⟨a, x⟩ := e
    obtain ⟨ha, c, hx, h⟩ := loadImage_cons_ok h
    exact ih (Memory.forall_write hm (hP a x c ha hx)) h

/-- A record in a loaded cell is one that the construction check built (R17). -/
theorem ImageItem.cell_wf {x : ImageItem} {c : Cell} (h : x.cell = .ok c) : c.wf = true := by
  cases x with
  | int n => cases h; rfl
  | text t => cases h; rfl
  | record r =>
    obtain ⟨i, hi, rfl⟩ := Except.map_eq_ok (Except.mapError_eq_ok h)
    exact decode_wf hi

theorem ImageItem.cell_ne_configuration (x : ImageItem) : x.cell ≠ .error .configuration := by
  cases x with
  | int n => nofun
  | text t => nofun
  | record r =>
    simp only [ImageItem.cell]
    cases decode r with
    | ok i => nofun
    | error e => nofun

/-- The image's own errors are never the configuration's. -/
theorem loadImage_ne_configuration (n : Nat) (image : List (Nat × ImageItem)) (m : Memory) :
    loadImage n image m ≠ .error .configuration := by
  induction image generalizing m with
  | nil => nofun
  | cons e image ih =>
    obtain ⟨a, x⟩ := e
    simp only [loadImage]
    split
    · cases hx : x.cell with
      | ok c => exact ih (m.write a c)
      | error e =>
        rintro ⟨⟩
        exact ImageItem.cell_ne_configuration x hx
    · nofun

theorem State.boot_ne_configuration {c : Config} (h : c.Legal) (image : List (Nat × ImageItem)) :
    State.boot c image ≠ .error .configuration := by
  rw [State.boot_of_legal h]
  cases hl : loadImage c.memSize image [] with
  | ok m => nofun
  | error e =>
    rintro ⟨⟩
    exact loadImage_ne_configuration _ _ _ hl

end Sys2Proof.Machine
end

section
/-! The invariant: which updates keep it, and that it holds of new machines and is kept by steps
(spec/00_scope.md R9, R10, R13). -/

namespace Sys2Proof.Machine

/-- Data in a cell is no ill-formed record. -/
theorem Cell.wf_of_isData {c : Cell} (h : c.isData = true) : c.wf = true := by
  cases c with
  | instr i => cases h
  | unset => rfl
  | int n => rfl
  | text t => rfl

theorem Memory.read_wf {m : Memory} (h : ∀ e ∈ m, e.2.wf = true) (a : Nat) : (m.read a).wf = true := by
  by_cases hu : m.read a = .unset
  · rw [hu]; rfl
  · exact h _ (Memory.mem_of_read hu)

/-- An address in `[0, M)` is below `M` as a natural number too. -/
theorem State.InMem.toNat_lt {s : State} {a : Word} (h : s.InMem a) : a.toNat < s.memSize := by
  obtain ⟨h0, hM⟩ := h
  rw [BitVec.toInt_eq_toNat_cond] at h0 hM
  split at hM <;> omega

/-! ### Updates -/

section
variable {s : State} (h : s.Inv)
include h

theorem State.Inv.setReg (i : Nat) {c : Cell} (hc : c.isData = true) : (s.setReg i c).Inv where
  config := by
    have hlen : (s.setReg i c).config = s.config := by simp [State.config]
    rw [hlen]; exact h.config
  regs := fun d hd => by
    rcases List.mem_or_eq_of_mem_set hd with hd | rfl
    · exact h.regs d hd
    · exact hc
  mem := h.mem
  records := h.records
  pc := h.pc

theorem State.Inv.setCell {a : Word} {c : Cell} (ha : s.InMem a) (hc : c.wf = true) : (s.setCell a c).Inv where
  config := h.config
  regs := h.regs
  mem := ⟨Memory.write_wf h.mem.1 _ _, Memory.forall_write h.mem.2 ha.toNat_lt⟩
  records := Memory.forall_write h.records hc
  pc := h.pc

theorem State.Inv.setPc {v : Word} (hv : 0 ≤ v.toInt ∨ v.toInt = -2 ^ 31) : ({ s with pc := v } : State).Inv :=
  ⟨h.config, h.regs, h.mem, h.records, hv⟩

/-- The invariant does not speak of the run state, the flag or the channel. -/
theorem State.Inv.setChannel (run : RunState) (flag : Bool) (out : Text) (input : List ReadResult) :
    ({ s with run := run, flag := flag, out := out, input := input } : State).Inv :=
  ⟨h.config, h.regs, h.mem, h.records, h.pc⟩

theorem State.Inv.raise (e : FatalError) : (s.raise e).Inv := h.setChannel (.faulted e) s.flag s.out s.input

theorem State.Inv.reg_wf {i : Nat} {c : Cell} (hc : s.regs[i]? = some c) : c.wf = true :=
  Cell.wf_of_isData (h.regs c (List.mem_of_getElem? hc))

theorem State.Inv.cell_wf (a : Word) : (s.cellAt a).wf = true := Memory.read_wf h.records a.toNat

end

/-- A nonnegative `pc` goes up to a nonnegative one or wraps to the least `Int32` (R32). -/
theorem toInt_add_one_of_nonneg {v : Word} (h : 0 ≤ v.toInt) : 0 ≤ (v + 1).toInt ∨ (v + 1).toInt = -2 ^ 31 := by
  have hlt := v.toInt_lt
  rw [BitVec.toInt_add, show (1 : Word).toInt = 1 from rfl, Int.bmod_def]
  omega

/-- The invariant where an instruction is executed: the fetch has found `pc` in memory, so it is not the wrapped value
that `State.Inv` allows between steps, and `IncPC` keeps the invariant. -/
structure State.ExecInv (s : State) : Prop where
  inv : s.Inv
  pc : 0 ≤ s.pc.toInt

theorem State.ExecInv.incPc {s : State} (h : s.ExecInv) : s.incPc.Inv := h.inv.setPc (toInt_add_one_of_nonneg h.pc)

theorem stable_execInv : Stable State.ExecInv (fun c => c.wf = true) where
  int _ := rfl
  reg _ _ _ h hc := h.inv.reg_wf hc
  cell _ a h := h.inv.cell_wf a
  setReg _ i _ h _ hd _ := ⟨h.inv.setReg i hd, h.pc⟩
  setCell _ _ _ h ha _ hc := ⟨h.inv.setCell ha hc, h.pc⟩

theorem exec_keeps_execInv {i : Instr} {s t : State} (hs : s.ExecInv) (h : exec i s = .next t) : t.ExecInv :=
  exec_keeps stable_execInv
    (hraise := fun _ e h => ⟨h.inv.raise e, h.pc⟩)
    (hpc := fun _ _ _ h hv => ⟨h.inv.setPc (.inl hv), hv⟩)
    (hflag := fun _ s b h => ⟨h.inv.setChannel s.run b s.out s.input, h.pc⟩)
    (hout := fun _ s t h => ⟨h.inv.setChannel s.run s.flag (s.out ++ t) s.input, h.pc⟩)
    (hin := fun _ s _ rest h _ => ⟨h.inv.setChannel s.run s.flag s.out rest, h.pc⟩)
    (hhalt := fun _ s h => ⟨h.inv.setChannel .halted s.flag s.out s.input, h.pc⟩)
    hs h

theorem State.fresh_inv {c : Config} {m : Memory} (hc : c.Legal) (hm : m.wf) (hb : ∀ e ∈ m, e.1 < c.memSize)
    (hr : ∀ e ∈ m, e.2.wf = true) : (State.fresh c m).Inv where
  config := by
    have hcfg : (State.fresh c m).config = c := by simp [State.config, State.fresh]
    rw [hcfg]; exact hc
  regs := fun d hd => by rw [List.eq_of_mem_replicate hd]; rfl
  mem := ⟨hm, hb⟩
  records := hr
  pc := .inl (Int.le_refl 0)

end Sys2Proof.Machine
end

section
/-! The channel: who writes the output and who takes the host's answers (spec/00_scope.md R18). -/

namespace Sys2Proof.Machine

/-- A property that register and memory writes keep is kept by everything built from them, whatever the cells hold. -/
theorem Stable.of_frame {I : State → Prop} (hreg : ∀ s i c, I s → I (s.setReg i c))
    (hcell : ∀ s a c, I s → I (s.setCell a c)) : Stable I (fun _ => True) where
  int _ := trivial
  reg _ _ _ _ _ := trivial
  cell _ _ _ := trivial
  setReg s i c h _ _ _ := hreg s i c h
  setCell s a c h _ _ _ := hcell s a c h

/-- A property of the two ends of the channel that `Write` keeps, where `echo` calls it, and `ReadLine` keeps, where
`input` calls it, is kept by every instruction. -/
theorem exec_keeps_channel {P : Text → List ReadResult → Prop} {i : Instr}
    (hout : i.IsEcho → ∀ out input x, P out input → P (out ++ x) input)
    (hin : i.IsInput → ∀ out r rest, P out (r :: rest) → P out rest)
    {s t : State} (hs : P s.out s.input) (h : exec i s = .next t) : P t.out t.input :=
  exec_keeps (I := fun u => P u.out u.input) (.of_frame (fun _ _ _ h => h) fun _ _ _ h => h)
    (hraise := fun _ _ h => h) (hpc := fun _ _ _ h _ => h) (hflag := fun _ _ _ h => h)
    (hout := fun he u x h => hout he u.out u.input x h)
    (hin := fun hi u r rest h hu => hin hi u.out r rest (hu ▸ h))
    (hhalt := fun _ _ h => h) hs h

/-- Every instruction appends to the output, if only the empty text. -/
theorem exec_out_grows {i : Instr} {s t : State} (h : exec i s = .next t) : ∃ x, t.out = s.out ++ x :=
  exec_keeps_channel (P := fun out _ => ∃ x, out = s.out ++ x)
    (hout := fun _ _ _ y ⟨x, hx⟩ => ⟨x ++ y, by rw [hx, List.append_assoc]⟩)
    (hin := fun _ _ _ _ h => h) ⟨[], (List.append_nil _).symm⟩ h

theorem exec_out_of_not_isEcho {i : Instr} {s t : State} (hi : ¬ i.IsEcho) (h : exec i s = .next t) : t.out = s.out :=
  exec_keeps_channel (P := fun out _ => out = s.out) (hout := fun he => absurd he hi) (hin := fun _ _ _ _ h => h) rfl h

theorem exec_input_of_not_isInput {i : Instr} {s t : State} (hi : ¬ i.IsInput) (h : exec i s = .next t) :
    t.input = s.input :=
  exec_keeps_channel (P := fun _ input => input = s.input) (hout := fun _ _ _ _ h => h)
    (hin := fun he => absurd he hi) rfl h

theorem step_out_grows {s t : State} (h : step s = .next t) : ∃ x, t.out = s.out ++ x :=
  step_keeps (I := fun u => ∃ x, u.out = s.out ++ x) (hraise := fun _ _ h => h) (hinc := fun _ h => h)
    (hexec := fun _ _ _ he => exec_out_grows he) ⟨[], (List.append_nil _).symm⟩ h

/-- An `input` that gives a next state had an answer, and acts on the oldest with that answer taken (R151). -/
theorem execInput_next {addr : Word} {s t : State} (h : execInput addr s = .next t) :
    ∃ r rest, s.input = r :: rest ∧ finish (acceptLine addr r { s with input := rest }) = .next t := by
  unfold execInput State.readLine at h
  cases hi : s.input with
  | nil => rw [hi] at h; cases h
  | cons r rest => rw [hi] at h; exact ⟨r, rest, rfl, h⟩

/-- What is done with an answer is at most a memory write and the flag. -/
theorem Stable.acceptLine {I : State → Prop} {Q : Cell → Prop} (St : Stable I Q)
    (hflag : ∀ s b, I s → I { s with flag := b }) (addr : Word) (r : ReadResult) :
    (acceptLine addr r).Keeps I (fun _ => True) := by
  have flagK : ∀ b, (setFlag b).Keeps I (fun _ => True) := fun b s hs => ⟨hflag s b hs, trivial⟩
  cases r with
  | endOfInput => exact Act.Keeps.fail _
  | channelError => exact Act.Keeps.fail _
  | line l =>
    simp only [Machine.acceptLine]
    cases parseInt32 l with
    | none => exact flagK false
    | some n => exact (St.memWrite addr (.int n) nofun (St.int n)).bind fun _ _ => flagK true

/-- `input` takes exactly the oldest answer. -/
theorem execInput_takes_oldest {addr : Word} {s t : State} (h : execInput addr s = .next t) :
    ∃ r, s.input = r :: t.input := by
  obtain ⟨r, rest, hs, hf⟩ := execInput_next h
  have frame : Stable (fun u : State => u.input = rest) (fun _ => True) :=
    .of_frame (fun _ _ _ h => h) fun _ _ _ h => h
  have ht : t.input = rest :=
    finish_keeps (frame.acceptLine (fun _ _ h => h) addr r) (fun _ _ h => h) rfl hf
  exact ⟨r, by rw [hs, ht]⟩

end Sys2Proof.Machine
end

section
/-! The integers of R12. -/

namespace Sys2Proof.Machine

/-- Reducing the integer of a word gives the word back. -/
@[simp] theorem wrap_toInt (n : Word) : wrap n.toInt = n := BitVec.ofInt_toInt

theorem toInt_wrap (z : Int) : (wrap z).toInt = z.bmod (2 ^ 32) := BitVec.toInt_ofInt z

theorem wrap_add (x y : Int) : wrap (x + y) = wrap x + wrap y := BitVec.ofInt_add x y

theorem wrap_mul (x y : Int) : wrap (x * y) = wrap x * wrap y := BitVec.ofInt_mul x y

theorem wrap_sub (x y : Int) : wrap (x - y) = wrap x - wrap y := by
  have h := wrap_add (x - y) y
  rw [Int.sub_add_cancel] at h
  rw [h, BitVec.add_sub_cancel]

end Sys2Proof.Machine
end

section
/-! The statements of spec/00_scope.md. -/

namespace Sys2Proof.Machine

/-- Settles O37: a step either fails to fetch, or executes from a `pc` that is in memory, where the stronger invariant
`State.ExecInv` holds and is kept; then `IncPC` can at most wrap. -/
theorem stepKeepsInvariant : Obligations.StepKeepsInvariant := by
  intro s t hs h
  obtain ⟨-, ⟨e, -, rfl⟩ | ⟨i, hm, -, hi⟩⟩ := step_cases h
  · exact hs.raise e
  · have hx : s.ExecInv := ⟨hs, hm.1⟩
    obtain ⟨he, -⟩ | ⟨u, he, -, rfl⟩ := hi
    · exact (exec_keeps_execInv hx he).inv
    · exact (exec_keeps_execInv hx he).incPc

/-- Settles O11: the listed conditions are the negation of R10's bounds, and no error of an image is the
configuration's. -/
theorem configurationsOutOfBoundsAreRefused : Obligations.ConfigurationsOutOfBoundsAreRefused := by
  intro c
  rw [← Config.not_legal_iff, not_not]
  exact ⟨State.boot_of_not_legal, fun hc => ⟨⟨_, State.boot_nil hc⟩, State.boot_ne_configuration hc⟩⟩

/-- Settles O12: loading starts from the empty memory and puts only built cells at addresses in memory. -/
theorem newMachineMeetsInvariant : Obligations.NewMachineMeetsInvariant := by
  intro c image s h
  obtain ⟨hc, m, hm, rfl⟩ := State.boot_ok h
  have hnil {P : Nat × Cell → Prop} : ∀ e ∈ ([] : Memory), P e := List.forall_mem_nil P
  have hwf : m.wf := loadImage_wf ⟨.nil, nofun⟩ hm
  have hbounds : ∀ e ∈ m, e.1 < c.memSize := loadImage_forall (fun _ _ _ ha _ => ha) hnil hm
  have hrecords : ∀ e ∈ m, e.2.wf = true := loadImage_forall (fun _ _ _ _ hx => ImageItem.cell_wf hx) hnil hm
  exact State.fresh_inv hc hwf hbounds hrecords

/-- Settles O42: of the elementary updates, only `Write` touches the output, and it appends. -/
theorem outputOnlyGrowsByEcho : Obligations.OutputOnlyGrowsByEcho :=
  ⟨fun _ _ => step_out_grows, fun _ _ _ => exec_out_of_not_isEcho⟩

/-- Settles O43: of the elementary updates, only `ReadLine` touches the queue of answers, and only `input` calls it. -/
theorem answersAreTakenInOrderByInput : Obligations.AnswersAreTakenInOrderByInput := by
  intro i s t h
  refine ⟨fun hi => exec_input_of_not_isInput hi h, fun hi => ?_⟩
  cases i with
  | input addr => exact execInput_takes_oldest h
  | add | mul | increment | decrement | load | move | push | pop | call | ret | jump | testEquals | echo | halt =>
    exact hi.elim

/-- Settles O10: the reference configuration is legal, and the machine it makes with nothing loaded is `State.reset`. -/
theorem resetIsTheEmptyReferenceMachine : Obligations.ResetIsTheEmptyReferenceMachine := by
  unfold Obligations.ResetIsTheEmptyReferenceMachine
  rw [reset_eq_fresh]
  exact State.boot_nil Config.reference_legal

/-- Settles O52: reduction is a ring homomorphism onto the words and gives back the integer of a word; its value is the
balanced remainder modulo `2^32`. -/
theorem integerResultsWrap : Obligations.IntegerResultsWrap := by
  refine ⟨fun a b => ⟨?_, ?_, ?_⟩, fun z => ⟨(wrap z).le_toInt, Int.le_sub_one_of_lt (wrap z).toInt_lt, ?_⟩⟩
  · rw [wrap_add, wrap_toInt, wrap_toInt]
  · rw [wrap_sub, wrap_toInt, wrap_toInt]
  · rw [wrap_mul, wrap_toInt, wrap_toInt]
  · rw [toInt_wrap]; exact Int.bmod_emod

end Sys2Proof.Machine
end

section
/-! The loop: what a step is, by what the fetch gives and how the instruction ends (spec/10_state.md R36, R40, R41). -/

namespace Sys2Proof.Machine

theorem retire_running {t : State} (h : t.run = .running) : retire (.next t) = .next t.incPc := by simp [retire, h]

theorem retire_ended {t : State} (h : t.run ≠ .running) : retire (.next t) = .next t := by
  cases hr : t.run with
  | running => exact absurd hr h
  | halted => simp [retire, hr]
  | faulted e => simp [retire, hr]

/-- The end of a step never takes a next state away. -/
theorem retire_next (t : State) : ∃ u, retire (.next t) = .next u := by
  by_cases h : t.run = .running
  · exact ⟨_, retire_running h⟩
  · exact ⟨_, retire_ended h⟩

theorem step_of_fetch {s : State} {i : Instr} (hr : s.run = .running) (hm : s.InMem s.pc)
    (hc : s.cellAt s.pc = .instr i) : step s = retire (exec i s) := by
  simp [step, stepWith, hr, fetch_ok.mpr ⟨hm, hc⟩]

theorem step_of_fetch_err {s : State} {e : FatalError} (hr : s.run = .running) (hf : fetch s = .err e s) :
    step s = .next (s.raise e) := by
  simp [step, stepWith, hr, hf]

theorem step_of_exec_running {s t : State} {i : Instr} (hr : s.run = .running) (hm : s.InMem s.pc)
    (hc : s.cellAt s.pc = .instr i) (he : exec i s = .next t) (ht : t.run = .running) : step s = .next t.incPc := by
  rw [step_of_fetch hr hm hc, he, retire_running ht]

theorem step_of_exec_ended {s t : State} {i : Instr} (hr : s.run = .running) (hm : s.InMem s.pc)
    (hc : s.cellAt s.pc = .instr i) (he : exec i s = .next t) (ht : t.run ≠ .running) : step s = .next t := by
  rw [step_of_fetch hr hm hc, he, retire_ended ht]

theorem step_of_ended {s : State} (h : s.run ≠ .running) : ∃ f, step s = .fault f := by
  cases hr : s.run with
  | running => exact absurd hr h
  | halted => exact ⟨.halted, by simp [step, stepWith, hr]⟩
  | faulted e => exact ⟨.faulted e, by simp [step, stepWith, hr]⟩

theorem fetch_range {s : State} (h : ¬ s.InMem s.pc) : fetch s = .err (.memoryOutOfRange s.pc) s := by
  rw [fetch, Act.bind_err (memRead_err h)]

theorem fetch_kind {s : State} (hm : s.InMem s.pc) (hc : ∀ i, s.cellAt s.pc ≠ .instr i) :
    fetch s = .err (.notAnInstruction s.pc (s.cellAt s.pc).kind) s := by
  rw [fetch, Act.bind_ok (memRead_ok hm)]
  cases h : s.cellAt s.pc with
  | instr i => exact absurd h (hc i)
  | unset => rfl
  | int n => rfl
  | text t => rfl

/-! ### Where a step is taken -/

theorem finish_next {α : Type} (r : Res α) : ∃ t, finish r = .next t := by
  cases r with
  | ok a t => exact ⟨t, rfl⟩
  | err e t => exact ⟨t.raise e, rfl⟩

theorem Instr.isInput_iff {i : Instr} : i.IsInput ↔ ∃ a, i = .input a := by
  cases i <;> simp [Instr.IsInput]

/-- With an answer waiting, `input` acts on the oldest with that answer taken (R151). -/
theorem execInput_of_answer {addr : Word} {s : State} {r : ReadResult} {rest : List ReadResult}
    (h : s.input = r :: rest) : execInput addr s = finish (acceptLine addr r { s with input := rest }) := by
  simp [execInput, State.readLine, h]

/-- Every instruction answers a next state, an `input` where an answer waits. -/
theorem exec_next {i : Instr} {s : State} (h : i.IsInput → s.input ≠ []) : ∃ t, exec i s = .next t := by
  cases i with
  | input addr =>
    obtain ⟨r, rest, hs⟩ := List.exists_cons_of_ne_nil (h trivial)
    obtain ⟨t, ht⟩ := finish_next (acceptLine addr r { s with input := rest })
    exact ⟨t, (execInput_of_answer hs).trans ht⟩
  | halt => exact ⟨_, rfl⟩
  | add | mul | increment | decrement | load | move | push | pop | call | ret | jump | testEquals | echo =>
    exact finish_next _

end Sys2Proof.Machine
end

section
/-! Loading: what each address reads as after it (spec/70_reset_and_hazards.md R190). -/

namespace Sys2Proof.Machine

/-- An address that the image does not name reads as before. -/
theorem loadImage_read_of_not_mem {n a : Nat} {image : List (Nat × ImageItem)} {m m' : Memory}
    (ha : ∀ x, (a, x) ∉ image) (h : loadImage n image m = .ok m') : m'.read a = m.read a := by
  induction image generalizing m with
  | nil => cases h; rfl
  | cons e image ih =>
    obtain ⟨b, y⟩ := e
    obtain ⟨-, c, -, h⟩ := loadImage_cons_ok h
    have hab : a ≠ b := fun hab => ha y (hab ▸ List.mem_cons_self)
    rw [ih (fun x hx => ha x (List.mem_cons_of_mem _ hx)) h, Memory.read_write, if_neg hab]

/-- Loading an image goes on to load each of its tails. -/
theorem loadImage_append_ok {n : Nat} {image rest : List (Nat × ImageItem)} {m m' : Memory}
    (h : loadImage n (image ++ rest) m = .ok m') : ∃ m₁, loadImage n rest m₁ = .ok m' := by
  induction image generalizing m with
  | nil => exact ⟨m, h⟩
  | cons e image ih =>
    obtain ⟨-, c, -, h⟩ := loadImage_cons_ok h
    exact ih h

/-- An address reads as the last item for it. -/
theorem loadImage_read_last {n a : Nat} {x : ImageItem} {image rest : List (Nat × ImageItem)} {m m' : Memory}
    (ha : ∀ y, (a, y) ∉ rest) (h : loadImage n (image ++ (a, x) :: rest) m = .ok m') : x.cell = .ok (m'.read a) := by
  obtain ⟨m₁, h⟩ := loadImage_append_ok h
  obtain ⟨-, c, hx, h⟩ := loadImage_cons_ok h
  rw [hx, loadImage_read_of_not_mem ha h, Memory.read_write, if_pos rfl]

end Sys2Proof.Machine
end

section
/-! The flag: no operation reads it (spec/10_state.md R34). -/

namespace Sys2Proof.Machine

variable {α β : Type}

/-- The state with another flag. -/
def State.withFlag (b : Bool) (s : State) : State := { s with flag := b }

/-- The same result with the flag `b`, where `w` says whether a value comes with a flag of its own, which stands. -/
def Res.withFlag (w b : Bool) : Res α → Res α
  | .ok a t => .ok a (if w then t else t.withFlag b)
  | .err e t => .err e (t.withFlag b)

/-- The action does not read the flag: from a state with another flag it does the same and leaves that flag, or where
`w` holds the flag that it writes itself before it ends in a value. -/
def Act.FlagBlind (w : Bool) (m : Act α) : Prop := ∀ s b, m (s.withFlag b) = (m s).withFlag w b

theorem Act.FlagBlind.pure (a : α) : (Act.pure a).FlagBlind false := fun _ _ => rfl

theorem Act.FlagBlind.fail {w : Bool} (e : FatalError) : (Act.fail e : Act α).FlagBlind w := fun _ _ => rfl

theorem Act.FlagBlind.bind {w : Bool} {m : Act α} {f : α → Act β} (hm : m.FlagBlind false)
    (hf : ∀ a, (f a).FlagBlind w) : (m.bind f).FlagBlind w := fun s b => by
  rw [Act.bind_run, Act.bind_run, hm s b]
  cases m s with
  | ok a t => exact hf a t b
  | err e t => rfl

/-! ### The operations -/

theorem setFlag_flagBlind (b : Bool) : (setFlag b).FlagBlind true := fun _ _ => rfl

theorem writeOut_flagBlind (t : Text) : (writeOut t).FlagBlind false := fun _ _ => rfl

theorem setPc_flagBlind (v : Word) : (setPc v).FlagBlind false := fun s b => by
  by_cases h : v.toInt < 0
  · rw [setPc_err h, setPc_err h]; rfl
  · rw [setPc_ok (by omega), setPc_ok (by omega)]; rfl

theorem asInt_flagBlind (site : Site) (c : Cell) : (asInt site c).FlagBlind false := by
  cases c with
  | int n => exact .pure n
  | unset | text | instr => exact .fail _

theorem readReg_flagBlind (i : Nat) : (readReg i).FlagBlind false := fun s b => by
  cases h : s.regs[i]? with
  | some c => rw [readReg_ok h, readReg_ok (s := s.withFlag b) h]; rfl
  | none =>
    have hi : s.nRegs ≤ i := List.getElem?_eq_none_iff.mp h
    rw [readReg_err hi, readReg_err (s := s.withFlag b) hi]; rfl

theorem writeInt_flagBlind (i : Nat) (n : Word) : (writeInt i n).FlagBlind false := fun s b => by
  by_cases h : i < s.nRegs
  · rw [writeInt_ok n h, writeInt_ok (s := s.withFlag b) n h]; rfl
  · have hi : s.nRegs ≤ i := Nat.not_lt.mp h
    rw [writeInt_err n hi, writeInt_err (s := s.withFlag b) n hi]; rfl

theorem writeReg_flagBlind (site : Site) (i : Nat) (c : Cell) : (writeReg site i c).FlagBlind false := fun s b => by
  by_cases h : i < s.nRegs
  · cases c with
    | instr j => rw [writeReg_instr site j h, writeReg_instr (s := s.withFlag b) site j h]; rfl
    | unset | int | text => rw [writeReg_ok site h rfl, writeReg_ok (s := s.withFlag b) site h rfl]; rfl
  · have hi : s.nRegs ≤ i := Nat.not_lt.mp h
    rw [writeReg_err site c hi, writeReg_err (s := s.withFlag b) site c hi]; rfl

theorem memRead_flagBlind (a : Word) : (memRead a).FlagBlind false := fun s b => by
  by_cases h : s.InMem a
  · rw [memRead_ok h, memRead_ok (s := s.withFlag b) h]; rfl
  · rw [memRead_err h, memRead_err (s := s.withFlag b) h]; rfl

theorem memWrite_flagBlind (a : Word) (c : Cell) : (memWrite a c).FlagBlind false := fun s b => by
  by_cases h : s.InMem a
  · rw [memWrite_ok c h, memWrite_ok (s := s.withFlag b) c h]; rfl
  · rw [memWrite_err c h, memWrite_err (s := s.withFlag b) c h]; rfl

/-! ### What is built from them -/

theorem ea_flagBlind (d : Desc) : (ea d).FlagBlind false :=
  (readReg_flagBlind _).bind fun c => (asInt_flagBlind .ea c).bind fun _ => .pure _

theorem resolveReg_flagBlind (i : Nat) : (resolveReg i).FlagBlind false :=
  (readReg_flagBlind i).bind fun c => by
    cases c with
    | unset => exact (writeInt_flagBlind i 0).bind fun _ => readReg_flagBlind i
    | int | text | instr => exact .pure _

theorem resolveMem_flagBlind (a : Word) : (resolveMem a).FlagBlind false :=
  (memRead_flagBlind a).bind fun c => by
    cases c with
    | unset => exact (memWrite_flagBlind a _).bind fun _ => memRead_flagBlind a
    | int | text | instr => exact .pure _

theorem resolve_flagBlind (d : Desc) : (resolve d).FlagBlind false := by
  cases hd : Desc.ind d with
  | false => rw [resolve_direct hd]; exact resolveReg_flagBlind _
  | true => rw [resolve_indirect hd]; exact (ea_flagBlind d).bind resolveMem_flagBlind

theorem assign_flagBlind (site : Site) (d : Desc) (c : Cell) : (assign site d c).FlagBlind false := by
  cases hd : Desc.ind d with
  | false => rw [assign_direct site c hd]; exact writeReg_flagBlind _ _ c
  | true => rw [assign_indirect site c hd]; exact (ea_flagBlind d).bind fun a => memWrite_flagBlind a c

theorem moveSource_flagBlind (src : MoveSrc) : (moveSource src).FlagBlind false := by
  cases src with
  | num n => exact .pure _
  | reg d => exact resolve_flagBlind d

theorem readSp_flagBlind : readSp.FlagBlind false := fun s b =>
  (readReg_flagBlind s.spIndex).bind (asInt_flagBlind .sp) s b

theorem writeSp_flagBlind (n : Word) : (writeSp n).FlagBlind false := fun s b => writeInt_flagBlind s.spIndex n s b

theorem stackPush_flagBlind (v : Cell) : (stackPush v).FlagBlind false :=
  readSp_flagBlind.bind fun sp => (memWrite_flagBlind sp v).bind fun _ => writeSp_flagBlind _

theorem stackPop_flagBlind : stackPop.FlagBlind false :=
  readSp_flagBlind.bind fun _ => (writeSp_flagBlind _).bind fun _ => memRead_flagBlind _

theorem binaryOp_flagBlind (f : Word → Word → Word) (site1 site2 : Site) (rd rs1 rs2 : Desc) :
    (binaryOp f site1 site2 rd rs1 rs2).FlagBlind false :=
  (resolve_flagBlind rs1).bind fun a => (resolve_flagBlind rs2).bind fun b =>
    (asInt_flagBlind site1 a).bind fun _ => (asInt_flagBlind site2 b).bind fun _ => writeInt_flagBlind _ _

theorem unaryOp_flagBlind (f : Word → Word) (site : Site) (r : Desc) : (unaryOp f site r).FlagBlind false :=
  (resolve_flagBlind r).bind fun a => (asInt_flagBlind site a).bind fun _ => writeInt_flagBlind _ _

theorem textOf_flagBlind (v : Cell) : (textOf v).FlagBlind false := by
  cases v with
  | int | text => exact .pure _
  | instr | unset => exact .fail _

theorem acceptLine_flagBlind (addr : Word) (r : ReadResult) : (acceptLine addr r).FlagBlind true := by
  cases r with
  | endOfInput | channelError => exact .fail _
  | line l =>
    simp only [acceptLine]
    cases parseInt32 l with
    | none => exact setFlag_flagBlind false
    | some n => exact (memWrite_flagBlind addr _).bind fun _ => setFlag_flagBlind true

/-! ### The instructions -/

/-- Run with another flag, an action that does not read it ends in the same state but for the flag, and in the same
state altogether where it writes the flag itself and does not fault. -/
theorem Act.FlagBlind.finish {w : Bool} {m : Act α} (hm : m.FlagBlind w) {P : Prop} (hP : P → w = true) {s t : State}
    (h : finish (m s) = .next t) (b : Bool) :
    ∃ c, Machine.finish (m (s.withFlag b)) = .next (t.withFlag c) ∧ (P → t.Unfaulted → c = t.flag) := by
  rw [hm s b]
  cases hr : m s with
  | ok a u =>
    rw [hr] at h
    cases h
    cases w with
    | false => exact ⟨b, rfl, fun hp => nomatch hP hp⟩
    | true => exact ⟨t.flag, rfl, fun _ _ => rfl⟩
  | err e u =>
    rw [hr] at h
    cases h
    exact ⟨b, rfl, fun _ hu => absurd rfl (hu e)⟩

theorem exec_withFlag {i : Instr} {s t : State} (h : exec i s = .next t) (b : Bool) :
    ∃ c, exec i (s.withFlag b) = .next (t.withFlag c) ∧ (i.WritesFlag → t.Unfaulted → c = t.flag) := by
  cases i with
  | add rd rs1 rs2 | mul rd rs1 rs2 => exact (binaryOp_flagBlind _ _ _ rd rs1 rs2).finish False.elim h b
  | increment r | decrement r => exact (unaryOp_flagBlind _ _ r).finish False.elim h b
  | load rd addr =>
    exact ((memRead_flagBlind addr).bind fun c => writeReg_flagBlind .loadDst rd.idx c).finish False.elim h b
  | move dst src =>
    exact ((moveSource_flagBlind src).bind fun v => assign_flagBlind .moveDst dst v).finish False.elim h b
  | push r => exact ((resolve_flagBlind r).bind stackPush_flagBlind).finish False.elim h b
  | pop r => exact (stackPop_flagBlind.bind fun c => writeReg_flagBlind .popDst r.idx c).finish False.elim h b
  | call target =>
    exact ((stackPush_flagBlind (.int s.pc)).bind fun _ => setPc_flagBlind (target - 1)).finish False.elim h b
  | ret =>
    exact (stackPop_flagBlind.bind fun c => (asInt_flagBlind .ret c).bind setPc_flagBlind).finish False.elim h b
  | jump target => exact (setPc_flagBlind (target - 1)).finish False.elim h b
  | testEquals ra rb =>
    exact ((resolve_flagBlind ra).bind fun x => (resolve_flagBlind rb).bind fun y =>
      setFlag_flagBlind (valuesEqual x y)).finish (fun _ => rfl) h b
  | echo d =>
    exact ((resolve_flagBlind d).bind fun v => (textOf_flagBlind v).bind writeOut_flagBlind).finish False.elim h b
  | input addr =>
    obtain ⟨r, rest, hs, h⟩ := execInput_next h
    have hx : exec (.input addr) (s.withFlag b) = _ := execInput_of_answer (s := s.withFlag b) hs
    rw [hx]
    exact (acceptLine_flagBlind addr r).finish (fun _ => rfl) h b
  | halt => cases h; exact ⟨b, rfl, False.elim⟩

theorem exec_flag_of_not_writesFlag {i : Instr} {s t : State} (hi : ¬ i.WritesFlag) (h : exec i s = .next t) :
    t.flag = s.flag :=
  exec_keeps (I := fun u => u.flag = s.flag) (.of_frame (fun _ _ _ h => h) fun _ _ _ h => h)
    (hraise := fun _ _ h => h) (hpc := fun _ _ _ h _ => h) (hflag := fun hw => absurd hw hi)
    (hout := fun _ _ _ h => h) (hin := fun _ _ _ _ h _ => h) (hhalt := fun _ _ h => h) rfl h

end Sys2Proof.Machine
end

section
/-! The program counter: what each instruction leaves in it (spec/10_state.md R31 to R33). -/

namespace Sys2Proof.Machine

variable {α β : Type}

/-! ### An action that ended in a value -/

/-- An instruction that does not fault ended in a value. -/
theorem finish_unfaulted {r : Res α} {t : State} (h : finish r = .next t) (ht : t.Unfaulted) : ∃ a, r = .ok a t := by
  cases r with
  | ok a u => cases h; exact ⟨a, rfl⟩
  | err e u => cases h; exact absurd rfl (ht e)

theorem Act.bind_eq_ok {m : Act α} {f : α → Act β} {s t : State} {b : β} (h : m.bind f s = .ok b t) :
    ∃ a u, m s = .ok a u ∧ f a u = .ok b t := by
  rw [Act.bind_run] at h
  cases hm : m s with
  | ok a u => rw [hm] at h; exact ⟨a, u, rfl, h⟩
  | err e u => rw [hm] at h; cases h

theorem setPc_eq_ok {v : Word} {s t : State} {x : Unit} (h : setPc v s = .ok x t) :
    0 ≤ v.toInt ∧ t = { s with pc := v } := by
  by_cases hv : v.toInt < 0
  · rw [setPc_err hv] at h; cases h
  · rw [setPc_ok (by omega)] at h; cases h; exact ⟨by omega, rfl⟩

theorem asInt_eq_ok {site : Site} {c : Cell} {s t : State} {n : Word} (h : asInt site c s = .ok n t) :
    c = .int n ∧ t = s := by
  cases c with
  | int m => cases h; exact ⟨rfl, rfl⟩
  | unset | text | instr => cases h

theorem readReg_eq_ok {i : Nat} {s t : State} {c : Cell} (h : readReg i s = .ok c t) :
    s.regs[i]? = some c ∧ t = s := by
  cases hi : s.regs[i]? with
  | none => rw [readReg_err (List.getElem?_eq_none_iff.mp hi)] at h; cases h
  | some d => rw [readReg_ok hi] at h; cases h; exact ⟨rfl, rfl⟩

theorem readSp_eq_ok {s t : State} {n : Word} (h : readSp s = .ok n t) :
    s.regs[s.spIndex]? = some (.int n) ∧ t = s := by
  obtain ⟨c, u, hc, hn⟩ := Act.bind_eq_ok h
  obtain ⟨hc, rfl⟩ := readReg_eq_ok hc
  obtain ⟨rfl, rfl⟩ := asInt_eq_ok hn
  exact ⟨hc, rfl⟩

/-- A pop that ends in a value reads the cell above the stack pointer, which moves there. -/
theorem stackPop_eq_ok {s t : State} {c : Cell} (h : stackPop s = .ok c t) :
    ∃ sp, s.regs[s.spIndex]? = some (.int sp) ∧ s.cellAt (sp + 1) = c ∧ t = s.setReg s.spIndex (.int (sp + 1)) := by
  obtain ⟨sp, u, hsp, -⟩ := Act.bind_eq_ok h
  obtain ⟨hsp, -⟩ := readSp_eq_ok hsp
  by_cases hm : s.InMem (sp + 1)
  · rw [stackPop_ok hsp hm] at h; cases h; exact ⟨sp, hsp, rfl, rfl⟩
  · rw [stackPop_range hsp hm] at h; cases h

/-! ### What an instruction that does not fault leaves -/

theorem exec_pc_of_not_writesPc {i : Instr} {s t : State} (hi : ¬ i.WritesPc) (h : exec i s = .next t) :
    t.pc = s.pc :=
  exec_keeps (I := fun u => u.pc = s.pc) (.of_frame (fun _ _ _ h => h) fun _ _ _ h => h)
    (hraise := fun _ _ h => h) (hpc := fun hw => absurd hw hi) (hflag := fun _ _ _ h => h)
    (hout := fun _ _ _ h => h) (hin := fun _ _ _ _ h _ => h) (hhalt := fun _ _ h => h) rfl h

/-- Only `halt` ends the run without an error. -/
theorem exec_running_or_faulted {i : Instr} {s t : State} (hi : i ≠ .halt) (hs : s.run = .running)
    (h : exec i s = .next t) : t.run = .running ∨ ∃ e, t.run = .faulted e :=
  exec_keeps (I := fun u => u.run = .running ∨ ∃ e, u.run = .faulted e)
    (.of_frame (fun _ _ _ h => h) fun _ _ _ h => h)
    (hraise := fun _ e _ => .inr ⟨e, rfl⟩) (hpc := fun _ _ _ h _ => h) (hflag := fun _ _ _ h => h)
    (hout := fun _ _ _ h => h) (hin := fun _ _ _ _ h _ => h) (hhalt := fun hh => absurd hh hi) (.inl hs) h

theorem exec_running {i : Instr} {s t : State} (hi : i ≠ .halt) (hs : s.run = .running) (h : exec i s = .next t)
    (ht : t.Unfaulted) : t.run = .running :=
  (exec_running_or_faulted hi hs h).resolve_right fun ⟨e, he⟩ => ht e he

/-- A `jump` or a `call` that does not fault leaves the target less one, which is not negative (R132, R140). -/
theorem exec_transfer_pc {i : Instr} {s t : State} {target : Word} (hi : i = .jump target ∨ i = .call target)
    (h : exec i s = .next t) (ht : t.Unfaulted) : 0 ≤ (target - 1).toInt ∧ t.pc = target - 1 := by
  obtain rfl | rfl := hi
  · obtain ⟨x, hx⟩ := finish_unfaulted h ht
    obtain ⟨hv, rfl⟩ := setPc_eq_ok hx
    exact ⟨hv, rfl⟩
  · obtain ⟨x, hx⟩ := finish_unfaulted h ht
    obtain ⟨_, u, -, hx⟩ := Act.bind_eq_ok hx
    obtain ⟨hv, rfl⟩ := setPc_eq_ok hx
    exact ⟨hv, rfl⟩

/-- A `ret` that does not fault leaves the popped integer (R133). -/
theorem exec_ret_pc {s t : State} (h : exec .ret s = .next t) (ht : t.Unfaulted) :
    ∃ sp v, s.regs[s.spIndex]? = some (.int sp) ∧ s.cellAt (sp + 1) = .int v ∧ 0 ≤ v.toInt ∧ t.pc = v := by
  obtain ⟨x, hx⟩ := finish_unfaulted h ht
  obtain ⟨c, u, hpop, hx⟩ := Act.bind_eq_ok hx
  obtain ⟨sp, hsp, hc, -⟩ := stackPop_eq_ok hpop
  obtain ⟨v, w, hv, hx⟩ := Act.bind_eq_ok hx
  obtain ⟨rfl, -⟩ := asInt_eq_ok hv
  obtain ⟨hv, rfl⟩ := setPc_eq_ok hx
  exact ⟨sp, v, hsp, hc, hv, rfl⟩

theorem State.incPc_of_pc {t : State} {v : Word} (h : t.pc = v) : t.incPc = { t with pc := v + 1 } := by
  rw [State.incPc, h]

/-! ### A jump to itself -/

theorem toInt_sub_one_nonneg {v : Word} (h0 : 0 ≤ v.toInt) (hne : v ≠ 0) : 0 ≤ (v - 1).toInt := by
  have hlt := v.toInt_lt
  have hv : v.toInt ≠ 0 := fun h => hne (BitVec.toInt_inj.mp h)
  rw [BitVec.toInt_sub, show (1 : Word).toInt = 1 from rfl, Int.bmod_def]
  omega

theorem exec_jump {target : Word} {s : State} (h : 0 ≤ (target - 1).toInt) :
    exec (.jump target) s = .next { s with pc := target - 1 } :=
  congrArg finish (setPc_ok h)

/-- The target less one, then `IncPC`, is where the jump stands (R44). -/
theorem step_jump_self {s : State} (hr : s.run = .running) (hm : s.InMem s.pc) (h0 : s.pc ≠ 0)
    (hc : s.cellAt s.pc = .instr (.jump s.pc)) : step s = .next s := by
  rw [step_of_exec_running hr hm hc (exec_jump (toInt_sub_one_nonneg hm.1 h0)) hr, State.incPc]
  simp

theorem run_succ_of_step {M : Host.Core} {s t : M.State} (h : M.step s = .next t) (k : Nat) :
    M.run (k + 1) s = M.run k t := by
  rw [Host.Core.run, h]

/-- A state that steps to itself stays there for ever. -/
theorem run_of_step_self {s : State} (h : step s = .next s) (k : Nat) : Host.Core.run core k s = .next s := by
  induction k with
  | zero => rfl
  | succ k ih => exact (run_succ_of_step (M := core) h k).trans ih

end Sys2Proof.Machine
end

section
/-! The statements of spec/10_state.md. -/

namespace Sys2Proof.Machine

/-- Settles O9: the registers and the other fields are those of `State.fresh`, and memory is the empty one with the
image's items written over it in order. -/
theorem newMachineHoldsResetValues : Obligations.NewMachineHoldsResetValues := by
  intro c image s h
  obtain ⟨-, m, hm, rfl⟩ := State.boot_ok h
  refine ⟨rfl, rfl, rfl, rfl, rfl, rfl, rfl, fun a ha => loadImage_read_of_not_mem ha hm, ?_⟩
  rintro a x before after rfl ha
  exact loadImage_read_last ha hm

/-- Settles O39: of the elementary updates only `setFlag` touches the flag, and none of the operations reads it. -/
theorem flagIsWrittenByTwoAndReadByNone : Obligations.FlagIsWrittenByTwoAndReadByNone :=
  ⟨fun _ _ _ => exec_flag_of_not_writesFlag, fun _ _ _ b h => exec_withFlag h b, rfl⟩

/-- Settles O40: an instruction other than `halt` that does not fault leaves the run going, so the step adds one to the
`pc` that the instruction left. -/
theorem nextFetchAddress : Obligations.NextFetchAddress := by
  intro i s t hr hm hc he ht
  have hstep : ∀ {v}, i ≠ .halt → t.pc = v → step s = .next { t with pc := v + 1 } := fun hi hv => by
    rw [step_of_exec_running hr hm hc he (exec_running hi hr he ht), State.incPc_of_pc hv]
  refine ⟨fun hw hi => ?plain, fun target hi => ?transfer, ?ret, ?halt⟩
  case plain =>
    have hpc := exec_pc_of_not_writesPc hw he
    exact ⟨hpc, hstep hi hpc⟩
  case transfer =>
    obtain ⟨hv, hpc⟩ := exec_transfer_pc hi he ht
    have hne : i ≠ .halt := by obtain rfl | rfl := hi <;> nofun
    exact ⟨hv, hpc, by simpa using hstep hne hpc⟩
  case ret =>
    rintro rfl
    obtain ⟨sp, v, hsp, hcell, hv, hpc⟩ := exec_ret_pc he ht
    exact ⟨sp, v, hsp, hcell, hv, hpc, hstep nofun hpc⟩
  case halt =>
    rintro rfl
    cases he
    exact ⟨rfl, rfl, step_of_exec_ended hr hm hc rfl nofun⟩

/-- Settles O47: a failed fetch gives a next state, and so does every instruction but an unanswered `input`. -/
theorem runningMachineSteps : Obligations.RunningMachineSteps := by
  intro s hr h
  obtain ⟨i, hf⟩ | ⟨e, hf⟩ := fetch_state s
  · obtain ⟨hm, hc⟩ := fetch_ok.mp hf
    have hin : i.IsInput → s.input ≠ [] := fun hi => by
      obtain ⟨a, rfl⟩ := Instr.isInput_iff.mp hi
      exact h.resolve_left fun hno => hno a hc
    obtain ⟨t, ht⟩ := exec_next hin
    rw [step_of_fetch hr hm hc, ht]
    exact retire_next t
  · exact ⟨_, step_of_fetch_err hr hf⟩

/-- Settles O51: the state at such a jump steps to itself. -/
theorem jumpToItselfHangs : Obligations.JumpToItselfHangs :=
  fun _ hr hm h0 hc k => run_of_step_self (step_jump_self hr hm h0 hc) k

/-- Settles O13: the step is what `retire` makes of the instruction's outcome. -/
theorem stepRunsTheFetchedInstruction : Obligations.StepRunsTheFetchedInstruction := by
  intro s i hr hm hc
  refine ⟨fun t he ht => step_of_exec_running hr hm hc he ht, fun t he ht => step_of_exec_ended hr hm hc he ht, ?_⟩
  intro f he
  rw [step_of_fetch hr hm hc, he]
  rfl

/-- Settles O14: the fetch fails by its range or by the kind of the cell, and the step raises that error. -/
theorem fetchErrors : Obligations.FetchErrors := fun _ hr =>
  ⟨fun hm => step_of_fetch_err hr (fetch_range hm), fun h0 hM hc => step_of_fetch_err hr (fetch_kind ⟨h0, hM⟩ hc)⟩

/-- Settles O15: the loop tests the run state before it fetches. -/
theorem endedRunTakesNoStep : Obligations.EndedRunTakesNoStep := fun _ => step_of_ended

/-- Settles O36: the reset state is a new machine of a legal configuration with nothing in its memory. -/
theorem invariantHoldsAtReset : Obligations.InvariantHoldsAtReset := by
  unfold Obligations.InvariantHoldsAtReset
  rw [reset_eq_fresh]
  exact State.fresh_inv Config.reference_legal ⟨.nil, nofun⟩ nofun nofun

end Sys2Proof.Machine
end

section
/-! The storage accessor: what a read through a descriptor gives and leaves (spec/20_memory.md R54 to R56). -/

namespace Sys2Proof.Machine

@[simp] theorem Cell.lazyZero_lazyZero (c : Cell) : c.lazyZero.lazyZero = c.lazyZero := by
  cases c <;> rfl

theorem Cell.lazyZero_of_ne_unset {c : Cell} (h : c ≠ .unset) : c.lazyZero = c := by
  cases c with
  | unset => exact absurd rfl h
  | int | text | instr => rfl

theorem Cell.isData_of_ne_instr {c : Cell} (h : ∀ j, c ≠ .instr j) : c.isData = true := by
  cases c with
  | instr j => exact absurd rfl (h j)
  | unset | int | text => rfl

@[simp] theorem Cell.isData_lazyZero (c : Cell) : c.lazyZero.isData = c.isData := by
  cases c <;> rfl

@[simp] theorem State.setReg_setReg (s : State) (i : Nat) (c d : Cell) : (s.setReg i c).setReg i d = s.setReg i d := by
  simp [State.setReg]

theorem State.setReg_get_self {s : State} {i : Nat} (c : Cell) (h : i < s.nRegs) :
    (s.setReg i c).regs[i]? = some c := by
  rw [State.setReg_get, if_pos rfl, if_pos h]

theorem State.setReg_get_of_ne {s : State} {i k : Nat} (c : Cell) (h : k ≠ i) :
    (s.setReg i c).regs[k]? = s.regs[k]? := by
  rw [State.setReg_get, if_neg h]

theorem State.setCell_cellAt_self (s : State) (a : Word) (c : Cell) : (s.setCell a c).cellAt a = c := by
  simp [State.cellAt]

theorem State.nRegs_lt_of_get {s : State} {i : Nat} {c : Cell} (h : s.regs[i]? = some c) : i < s.nRegs :=
  (List.getElem?_eq_some_iff.mp h).1

/-- A register that holds an integer still holds it after any register has been read through the accessor. -/
theorem State.setReg_lazyZero_get_int {s : State} {i k : Nat} {c : Cell} {n : Word} (hi : s.regs[i]? = some c)
    (hk : s.regs[k]? = some (.int n)) : (s.setReg i c.lazyZero).regs[k]? = some (.int n) := by
  by_cases hki : k = i
  · subst hki
    obtain rfl : c = .int n := Option.some.inj (hi.symm.trans hk)
    exact State.setReg_get_self _ (State.nRegs_lt_of_get hk)
  · rw [State.setReg_get_of_ne _ hki, hk]

/-! ### The effective address -/

theorem ea_eq_ok {d : Desc} {s t : State} {a : Word} (h : ea d s = .ok a t) :
    (∃ b, s.regs[Desc.idx d]? = some (.int b) ∧ a = b + Desc.off d) ∧ t = s := by
  obtain ⟨c, u, hc, hsum⟩ := Act.bind_eq_ok h
  obtain ⟨hc, rfl⟩ := readReg_eq_ok hc
  obtain ⟨b, u, hb, hpure⟩ := Act.bind_eq_ok hsum
  obtain ⟨rfl, rfl⟩ := asInt_eq_ok hb
  cases hpure
  exact ⟨⟨b, hc, rfl⟩, rfl⟩

/-- The address is computed from the registers alone, so a memory write leaves it. -/
theorem ea_setCell {d : Desc} {s : State} {a : Word} (h : ea d s = .ok a s) (a' : Word) (c : Cell) :
    ea d (s.setCell a' c) = .ok a (s.setCell a' c) := by
  obtain ⟨⟨b, hb, rfl⟩, -⟩ := ea_eq_ok h
  exact ea_ok (s := s.setCell a' c) hb

/-! ### Resolving a register and a cell -/

theorem resolveReg_eq_ok {i : Nat} {s t : State} {c : Cell} (h : resolveReg i s = .ok c t) :
    ∃ v, s.regs[i]? = some v ∧ c = v.lazyZero ∧ t = s.setReg i v.lazyZero := by
  cases hi : s.regs[i]? with
  | none => rw [resolveReg_err (List.getElem?_eq_none_iff.mp hi)] at h; cases h
  | some v => rw [resolveReg_ok hi] at h; cases h; exact ⟨v, rfl, rfl, rfl⟩

/-- A written cell is read as it is, and nothing is written. -/
theorem resolveMem_written {s : State} {a : Word} (ha : s.InMem a) (hc : s.cellAt a ≠ .unset) :
    resolveMem a s = .ok (s.cellAt a) s := by
  rw [resolveMem_ok ha, if_neg hc, Cell.lazyZero_of_ne_unset hc]

/-- A never-written cell is read as zero, which it holds from then on. -/
theorem resolveMem_unset {s : State} {a : Word} (ha : s.InMem a) (hc : s.cellAt a = .unset) :
    resolveMem a s = .ok (.int 0) (s.setCell a (.int 0)) := by
  rw [resolveMem_ok ha, if_pos hc, hc, Cell.lazyZero]

theorem resolveMem_eq_ok {s t : State} {a : Word} {c : Cell} (h : resolveMem a s = .ok c t) :
    s.InMem a ∧ ((s.cellAt a ≠ .unset ∧ c = s.cellAt a ∧ t = s) ∨
      (s.cellAt a = .unset ∧ c = .int 0 ∧ t = s.setCell a (.int 0))) := by
  by_cases ha : s.InMem a
  · refine ⟨ha, ?_⟩
    by_cases hc : s.cellAt a = .unset
    · rw [resolveMem_unset ha hc] at h; cases h; exact .inr ⟨hc, rfl, rfl⟩
    · rw [resolveMem_written ha hc] at h; cases h; exact .inl ⟨hc, rfl, rfl⟩
  · rw [resolveMem_err ha] at h; cases h

/-- `Resolve` never answers `Unset` (R55). -/
theorem resolve_ne_unset {s t : State} {d : Desc} {c : Cell} (h : resolve d s = .ok c t) : c ≠ .unset := by
  have anyState : Stable (fun _ => True) (fun _ => True) := .of_frame (fun _ _ _ h => h) fun _ _ _ h => h
  have hkeeps := anyState.resolve d s trivial
  rw [h] at hkeeps
  obtain ⟨-, -, hc⟩ := hkeeps
  exact hc

/-- The first read has left in the register the value that it gave. -/
theorem resolveReg_again {i : Nat} {s t : State} {c : Cell} (h : resolveReg i s = .ok c t) :
    resolveReg i t = .ok c t := by
  obtain ⟨v, hv, rfl, rfl⟩ := resolveReg_eq_ok h
  rw [resolveReg_ok (State.setReg_get_self _ (State.nRegs_lt_of_get hv))]
  simp

/-- The first read has left in the cell the value that it gave, and has not touched the base register. -/
theorem resolve_indirect_again {d : Desc} (hd : Desc.ind d = true) {s t : State} {c : Cell}
    (h : resolve d s = .ok c t) : resolve d t = .ok c t := by
  obtain ⟨a, u, ha, hm⟩ := Act.bind_eq_ok (resolve_indirect hd ▸ h)
  obtain ⟨-, rfl⟩ := ea_eq_ok ha
  obtain ⟨hin, ⟨-, -, rfl⟩ | ⟨-, rfl, rfl⟩⟩ := resolveMem_eq_ok hm
  · exact h
  · have hcell : (u.setCell a (.int 0)).cellAt a = .int 0 := u.setCell_cellAt_self a (.int 0)
    rw [resolve_indirect hd, Act.bind_ok (ea_setCell ha a (.int 0)),
      resolveMem_written (s := u.setCell a (.int 0)) hin (by rw [hcell]; nofun), hcell]

end Sys2Proof.Machine
end

section
/-! Memory and configuration: what every step keeps of them (spec/20_memory.md R50, R52, R73). -/

namespace Sys2Proof.Machine

/-! ### The canonical form -/

/-- In canonical form the entries are the written cells with what they read as. -/
theorem Memory.mem_iff {m : Memory} (hw : m.wf) (e : Nat × Cell) : e ∈ m ↔ m.read e.1 = e.2 ∧ e.2 ≠ .unset := by
  refine ⟨fun he => ⟨Memory.read_of_mem hw he, hw.2 e he⟩, fun ⟨hr, hu⟩ => ?_⟩
  have he := Memory.mem_of_read (hr ▸ hu)
  rwa [hr] at he

/-- In canonical form the addresses rise strictly, so the set of entries fixes their order. -/
theorem Memory.eq_of_mem_iff {m m' : Memory} (hw : m.wf) (hw' : m'.wf) (h : ∀ e, e ∈ m ↔ e ∈ m') : m = m' := by
  have hirrefl : Std.Irrefl fun x y : Nat × Cell => x.1 < y.1 := ⟨fun x => Nat.lt_irrefl x.1⟩
  have hantisymm : Std.Antisymm fun x y : Nat × Cell => x.1 < y.1 := ⟨fun _ _ h h' => absurd h' (Nat.lt_asymm h)⟩
  exact hw.1.eq_of_mem_iff hw'.1 h

/-! ### What a step keeps of the storage -/

/-- A property of the configuration, the registers and memory that register and memory writes keep is kept by every
step: nothing else in a step touches these. -/
theorem step_keeps_storage {P : Config → List Cell → Memory → Prop} {Q : Cell → Prop}
    (St : Stable (fun u => P u.config u.regs u.mem) Q) {s t : State} (hs : P s.config s.regs s.mem)
    (h : step s = .next t) : P t.config t.regs t.mem :=
  step_keeps (I := fun u => P u.config u.regs u.mem) (hraise := fun _ _ h => h) (hinc := fun _ h => h)
    (hexec := fun _ _ _ he => exec_keeps St (hraise := fun _ _ h => h) (hpc := fun _ _ _ h _ => h)
      (hflag := fun _ _ _ h => h) (hout := fun _ _ _ h => h) (hin := fun _ _ _ _ h _ => h)
      (hhalt := fun _ _ h => h) hs he)
    hs h

theorem State.setReg_config (s : State) (i : Nat) (c : Cell) : (s.setReg i c).config = s.config := by
  simp [State.config]

theorem stable_config (cfg : Config) : Stable (fun u => u.config = cfg) (fun _ => True) :=
  .of_frame (fun s i c h => (s.setReg_config i c).trans h) fun _ _ _ h => h

/-- No operation writes `Unset` to memory. -/
theorem stable_written (a : Nat) : Stable (fun u => u.mem.read a ≠ .unset) (fun _ => True) where
  int _ := trivial
  reg _ _ _ _ _ := trivial
  cell _ _ _ := trivial
  setReg _ _ _ h _ _ _ := h
  setCell s b c h _ hc _ := by
    rw [State.setCell_mem, Memory.read_write]
    split
    · exact hc
    · exact h

/-- A record in the cell `c` stands in the memory `m`. -/
def Cell.RecordFrom (m : Memory) (c : Cell) : Prop := ∀ i, c = .instr i → ∃ b, m.read b = .instr i

theorem Cell.recordFrom_read (m : Memory) (a : Nat) : (m.read a).RecordFrom m := fun _ h => ⟨a, h⟩

theorem Cell.recordFrom_of_isData (m : Memory) {c : Cell} (h : c.isData = true) : c.RecordFrom m := by
  rintro i rfl
  cases h

theorem State.RegsHoldData.setReg {s : State} (h : s.RegsHoldData) (i : Nat) {c : Cell} (hc : c.isData = true) :
    (s.setReg i c).RegsHoldData := fun d hd => by
  obtain hd | rfl := List.mem_or_eq_of_mem_set hd
  · exact h d hd
  · exact hc

/-- With no record in a register, the only records an operation can write to memory are those it read there. -/
theorem stable_recordFrom (m : Memory) :
    Stable (fun u => u.RegsHoldData ∧ ∀ a, (u.mem.read a).RecordFrom m) (Cell.RecordFrom m) where
  int _ := Cell.recordFrom_of_isData m rfl
  reg _ _ c h hc := Cell.recordFrom_of_isData m (h.1 c (List.mem_of_getElem? hc))
  cell _ a h := h.2 a.toNat
  setReg _ i _ h _ hd _ := ⟨h.1.setReg i hd, h.2⟩
  setCell s a c h _ _ hc := ⟨h.1, fun b => by
    rw [State.setCell_mem, Memory.read_write]
    split
    · exact hc
    · exact h.2 b⟩

/-! ### Push and pop -/

/-- `push` where it completes: the register is read through the accessor, and its value goes to the stack (R130). -/
theorem exec_push_ok {s : State} {r : Desc} {v : Cell} {sp : Word} (hr : Desc.ind r = false)
    (hv : s.regs[Desc.idx r]? = some v) (hsp : s.regs[s.spIndex]? = some (.int sp)) (hin : s.InMem sp) :
    exec (.push r) s = .next
      (((s.setReg (Desc.idx r) v.lazyZero).setCell sp v.lazyZero).setReg s.spIndex (.int (sp - 1))) := by
  have hpush := stackPush_ok (s := s.setReg (Desc.idx r) v.lazyZero) v.lazyZero
    (State.setReg_lazyZero_get_int hv hsp) hin
  show finish ((resolve r).bind stackPush s) = _
  rw [resolve_direct hr, Act.bind_ok (resolveReg_ok hv), hpush]
  rfl

/-- `pop` where it completes: the stack pointer goes up, and the cell there is copied raw (R131). -/
theorem exec_pop_ok {s : State} {q : Desc} {n : Word} (hsp : s.regs[s.spIndex]? = some (.int n))
    (hin : s.InMem (n + 1)) (hdata : (s.cellAt (n + 1)).isData = true) (hq : Desc.idx q < s.nRegs) :
    exec (.pop q) s = .next ((s.setReg s.spIndex (.int (n + 1))).setReg (Desc.idx q) (s.cellAt (n + 1))) := by
  show finish (stackPop.bind (fun c => writeReg .popDst (Desc.idx q) c) s) = _
  rw [Act.bind_ok (stackPop_ok hsp hin), writeReg_ok .popDst (by simpa using hq) hdata]
  rfl

/-- A pop finds what the push before it left: the stack pointer one lower, and the value in the cell above it (R62). -/
theorem exec_pop_after_push {s : State} {q : Desc} {v : Cell} {sp : Word} (hlt : s.spIndex < s.nRegs)
    (hin : s.InMem sp) (hv : v.isData = true) (hq : Desc.idx q < s.nRegs) :
    exec (.pop q) ((s.setCell sp v).setReg s.spIndex (.int (sp - 1))) =
      .next (((s.setCell sp v).setReg s.spIndex (.int sp)).setReg (Desc.idx q) v) := by
  have hback : sp - 1 + 1 = sp := BitVec.sub_add_cancel sp 1
  have hcell : ((s.setCell sp v).setReg s.spIndex (.int (sp - 1))).cellAt sp = v := State.setCell_cellAt_self s sp v
  have hpop := exec_pop_ok (s := (s.setCell sp v).setReg s.spIndex (.int (sp - 1))) (q := q)
    (State.setReg_get_self _ hlt)
  rw [hback, hcell] at hpop
  rw [hpop hin hv (by simpa)]
  simp

end Sys2Proof.Machine
end

section
/-! The statements of spec/20_memory.md. -/

namespace Sys2Proof.Machine

/-- Settles O17: a direct read is one of the register; an indirect one computes the address and reads the cell, which
either is written and stays, or is `Unset` and becomes zero. -/
theorem resolveRule : Obligations.ResolveRule := by
  refine fun s d => ⟨fun hd hi => ?_, fun hd c hc => ?_, fun hd e t he => ?_,
    fun hd a ha => ⟨fun hout => ?_, fun hin => ?_⟩, fun _ _ => resolve_ne_unset⟩
  · rw [resolve_direct hd, resolveReg_err hi]
  · refine ⟨_, by rw [resolve_direct hd, resolveReg_ok hc], rfl, fun k => ?_⟩
    rw [State.setReg_get, if_pos (State.nRegs_lt_of_get hc)]
  · rw [resolve_indirect hd, Act.bind_err he]
  · rw [resolve_indirect hd, Act.bind_ok ha, resolveMem_err hout]
  · rw [resolve_indirect hd, Act.bind_ok ha]
    by_cases hu : s.cellAt a = .unset
    · rw [resolveMem_unset hin hu, hu]
      exact ⟨_, rfl, rfl, fun h => absurd rfl h, fun b => Memory.read_write s.mem a.toNat b (.int 0)⟩
    · rw [resolveMem_written hin hu, Cell.lazyZero_of_ne_unset hu]
      refine ⟨s, rfl, rfl, fun _ => rfl, fun b => ?_⟩
      split
      next hb => rw [hb]; rfl
      next => rfl

/-- Settles O18: the first read leaves in the cell read the value that it gave, which is not `Unset`. -/
theorem resolveIsIdempotent : Obligations.ResolveIsIdempotent := by
  intro s t d c h
  cases hd : Desc.ind d with
  | false =>
    rw [resolve_direct hd] at h ⊢
    exact resolveReg_again h
  | true => exact resolve_indirect_again hd h

/-- Settles O38: of the elementary updates, none changes the number of registers or a parameter. -/
theorem stepKeepsConfiguration : Obligations.StepKeepsConfiguration := fun s _ h =>
  step_keeps_storage (P := fun cfg _ _ => cfg = s.config) (stable_config s.config) rfl h

/-- Settles O44: a memory write puts a value, never `Unset`, in its cell. -/
theorem writtenMemoryStaysWritten : Obligations.WrittenMemoryStaysWritten := fun _ _ a h hs =>
  step_keeps_storage (P := fun _ _ m => m.read a ≠ .unset) (stable_written a) hs h

/-- Settles O45: the invariant is that no register holds a record and every record in memory is one of those that stood
there first. -/
theorem stepBuildsNoNewRecord : Obligations.StepBuildsNoNewRecord := by
  intro s t hregs h
  obtain ⟨-, hrecords⟩ := step_keeps_storage
    (P := fun _ regs m => (∀ c ∈ regs, c.isData = true) ∧ ∀ a, (m.read a).RecordFrom s.mem)
    (stable_recordFrom s.mem) ⟨hregs, Cell.recordFrom_read s.mem⟩ h
  exact hrecords

/-- Settles O49: the push leaves the value in the cell that the stack pointer named, and the pop, which finds the
pointer one lower, reads that cell. -/
theorem pushThenPopRestores : Obligations.PushThenPopRestores := by
  intro s r q v sp hr _ hv hdata hsp hin hq hne
  have hspLt := State.nRegs_lt_of_get hsp
  have hpop := exec_pop_after_push (s := s.setReg (Desc.idx r) v.lazyZero) (q := q) (v := v.lazyZero) (by simpa) hin
    (by simpa using Cell.isData_of_ne_instr hdata) (by simpa)
  refine ⟨_, _, exec_push_ok hr hv hsp hin, hpop, State.setReg_get_self _ (by simpa), ?_,
    State.setCell_cellAt_self _ sp _⟩
  rw [State.setReg_get_of_ne _ hne.symm]
  exact State.setReg_get_self _ (by simpa)

/-- Settles O54: in canonical form the entries are determined by the reads. -/
theorem equalMemoriesAreEqualData : Obligations.EqualMemoriesAreEqualData := fun m m' hw hw' h =>
  Memory.eq_of_mem_iff hw hw' fun e => by rw [Memory.mem_iff hw, Memory.mem_iff hw', h]

/-- Settles O16: the base register is read raw and the sum is the one modulo `2^32`. -/
theorem effectiveAddressRule : Obligations.EffectiveAddressRule := by
  refine fun s d => ⟨fun hi => ea_range hi, fun c hc hn => ea_kind hc hn, fun b hb => ?_⟩
  rw [ea_ok hb, wrap_add, wrap_toInt, wrap_toInt]

end Sys2Proof.Machine
end

section
/-! The descriptor codec: its fields and its encoder as arithmetic (spec/30_encoding.md R84 to R88). -/

namespace Sys2Proof

theorem Desc.idx_eq_mod (d : Desc) : Desc.idx d = d.toNat % 256 := by simp [Desc.idx]

theorem Desc.toNat_offField (d : Desc) : (Desc.offField d).toNat = d.toNat / 256 % 65536 := by
  simp [Desc.offField, Nat.shiftRight_eq_div_pow]

/-- Sign extension keeps the integer of the field. -/
theorem Desc.toInt_off (d : Desc) : (Desc.off d).toInt = (Desc.offField d).toInt :=
  BitVec.toInt_signExtend_of_le (by decide)

theorem Desc.ind_iff (d : Desc) : Desc.ind d = true ↔ d.toNat / 2 ^ 24 % 2 = 1 := by
  rw [Desc.ind, BitVec.getLsbD, Nat.testBit_eq_decide_div_mod_eq, decide_eq_true_iff]

theorem Desc.off_congr {d e : Desc} (h : (Desc.offField d).toNat = (Desc.offField e).toNat) :
    Desc.off d = Desc.off e := by
  rw [Desc.off, Desc.off, BitVec.eq_of_toNat_eq h]

/-- The formula of R88, which loses no bit of an index that fits its field. -/
theorem Desc.toNat_enc {i : Nat} (hi : i ≤ 255) (o : Int) (b : Bool) :
    (Desc.enc i o b).toNat = i ||| (o % 65536).toNat <<< 8 ||| (if b then 1 <<< 24 else 0) := by
  have hidx : (BitVec.ofNat 32 i).toNat = i := Nat.mod_eq_of_lt (by omega)
  have hoff : ((BitVec.ofInt 16 o).setWidth 32 <<< 8).toNat = (o % 65536).toNat <<< 8 := by
    rw [BitVec.toNat_shiftLeft, BitVec.toNat_setWidth, BitVec.toNat_ofInt, Nat.shiftLeft_eq]
    omega
  rw [Desc.enc, BitVec.toNat_or, BitVec.toNat_or, hidx, hoff]
  cases b <;> rfl

/-- The three fields of R88's formula do not overlap, so it is a sum. -/
theorem enc_formula_eq_sum {i f : Nat} (hi : i ≤ 255) (hf : f < 65536) (b : Bool) :
    i ||| f <<< 8 ||| (if b then 1 <<< 24 else 0) = i + 256 * f + 2 ^ 24 * b.toNat := by
  have hlow : i ||| f <<< 8 = i + 256 * f := by
    rw [Nat.or_comm, ← Nat.shiftLeft_add_eq_or_of_lt (by omega), Nat.shiftLeft_eq]
    omega
  have hhigh : (if b then 1 <<< 24 else 0) = b.toNat <<< 24 := by cases b <;> rfl
  rw [hlow, hhigh, Nat.or_comm, ← Nat.shiftLeft_add_eq_or_of_lt (by omega), Nat.shiftLeft_eq]
  omega

end Sys2Proof
end

section
/-! The construction check: it is the pseudocode of R92, and it accepts the record of every well-formed instruction
(spec/30_encoding.md R80, R92). -/

namespace Sys2Proof

variable {α β ε : Type}

/-! ### A well-formed instruction passes -/

theorem takeMoveSrc_arg (p : Nat) (m : MoveSrc) : takeMoveSrc p m.arg = .ok m := by
  cases m with
  | num n => rw [MoveSrc.arg, takeMoveSrc, takeInt32_toInt]; rfl
  | reg d => rfl

theorem buildR_reg (mk : Desc → Instr) {d : Desc} (hd : Desc.ind d = false) : buildR mk [.reg d] = .ok (mk d) := by
  rw [buildR, takeR_direct 1 hd]; rfl

theorem buildN_num (mk : Word → Instr) (n : Word) : buildN mk [.num n.toInt] = .ok (mk n) := by
  rw [buildN, takeN, takeInt32_toInt]; rfl

theorem buildRN_reg_num (mk : Desc → Word → Instr) {d : Desc} (hd : Desc.ind d = false) (n : Word) :
    buildRN mk [.reg d, .num n.toInt] = .ok (mk d n) := by
  rw [buildRN, takeR_direct 1 hd, takeN, takeInt32_toInt]; rfl

theorem buildRR_reg (mk : Desc → Desc → Instr) {d e : Desc} (hd : Desc.ind d = false) (he : Desc.ind e = false) :
    buildRR mk [.reg d, .reg e] = .ok (mk d e) := by
  rw [buildRR, takeR_direct 1 hd, takeR_direct 2 he]; rfl

theorem buildRRR_reg (mk : Desc → Desc → Desc → Instr) {d e f : Desc} (hd : Desc.ind d = false)
    (he : Desc.ind e = false) (hf : Desc.ind f = false) : buildRRR mk [.reg d, .reg e, .reg f] = .ok (mk d e f) := by
  rw [buildRRR, takeR_direct 1 hd, takeR_direct 2 he, takeR_direct 3 hf]; rfl

theorem buildMov_reg_src (mk : Desc → MoveSrc → Instr) (d : Desc) (m : MoveSrc) :
    buildMov mk [.reg d, m.arg] = .ok (mk d m) := by
  rw [buildMov, takeMoveSrc_arg]; rfl

/-- The builder of an instruction's format makes it from its own arguments. -/
theorem construct_args {i : Instr} (h : i.wf = true) : construct i.opcode i.args = .ok i := by
  cases i with
  | add rd rs1 rs2 | mul rd rs1 rs2 =>
    simp only [Instr.wf, Bool.and_eq_true, Bool.not_eq_true'] at h
    obtain ⟨⟨hd, h1⟩, h2⟩ := h
    exact buildRRR_reg _ hd h1 h2
  | testEquals ra rb =>
    simp only [Instr.wf, Bool.and_eq_true, Bool.not_eq_true'] at h
    obtain ⟨ha, hb⟩ := h
    exact buildRR_reg _ ha hb
  | increment r | decrement r | push r | pop r => exact buildR_reg _ ((Bool.not_eq_true' _).mp h)
  | load rd addr => exact buildRN_reg_num _ ((Bool.not_eq_true' _).mp h) addr
  | move dst src => exact buildMov_reg_src _ dst src
  | call n | jump n | input n => exact buildN_num _ n
  | echo | ret | halt => rfl

/-! ### What is rejected, and why -/

/-- The reason a check gives for its rejection, if it rejects. -/
def rejection : Except ε α → Option ε
  | .ok _ => none
  | .error e => some e

theorem rejection_eq_some {x : Except ε α} {e : ε} (h : rejection x = some e) : x = .error e := by
  cases x with
  | ok a => cases h
  | error e' => cases h; rfl

theorem rejection_eq_none {x : Except ε α} (h : rejection x = none) : ∃ a, x = .ok a := by
  cases x with
  | ok a => exact ⟨a, rfl⟩
  | error e => cases h

theorem rejection_map (f : α → β) (x : Except ε α) : rejection (x.map f) = rejection x := by cases x <;> rfl

/-- The first of two checks in order decides, if it rejects. -/
theorem rejection_bind {x : Except ε α} {f : α → Except ε β} {y : Option ε} (h : ∀ a, rejection (f a) = y) :
    rejection (x.bind f) = (rejection x).or y := by
  cases x with
  | ok a => exact h a
  | error e => rfl

/-! ### One argument -/

theorem rejection_takeR (p : Nat) (a : Arg) : rejection (takeR p a) = argError p .r a := by
  cases a with
  | reg d => cases hd : Desc.ind d <;> simp [takeR, argError, hd, rejection]
  | num n => rfl
  | txt t => rfl

theorem rejection_takeD (p : Nat) (a : Arg) : rejection (takeD p a) = argError p .d a := by cases a <;> rfl

theorem rejection_takeInt32 (p : Nat) (n : Int) :
    rejection (takeInt32 p n) = if -2 ^ 31 ≤ n ∧ n ≤ 2 ^ 31 - 1 then none else some (.literalRange p) := by
  unfold takeInt32
  split <;> rfl

theorem rejection_takeN (p : Nat) (a : Arg) : rejection (takeN p a) = argError p .n a := by
  cases a with
  | num n => exact rejection_takeInt32 p n
  | reg d => rfl
  | txt t => rfl

theorem rejection_takeMoveSrc (p : Nat) (a : Arg) : rejection (takeMoveSrc p a) = argError p .dn a := by
  cases a with
  | num n => exact (rejection_map _ _).trans (rejection_takeInt32 p n)
  | reg d => rfl
  | txt t => rfl

/-! ### A list of arguments -/

/-- The test of R92 on an argument list: its length, then its positions from the left. -/
def checkArgs (ks : List Pos) (args : List Arg) : Option ConstructionReason :=
  if args.length = ks.length then firstArgError 1 ks args else some .arity

theorem rejection_buildNone (i : Instr) (args : List Arg) : rejection (buildNone i args) = checkArgs [] args := by
  cases args <;> rfl

/-- The three formats of one position. -/
theorem rejection_build_one {k : Pos} {take : Arg → Except ConstructionReason α}
    (ht : ∀ a, rejection (take a) = argError 1 k a) (mk : α → Instr) (a : Arg) :
    rejection ((take a).map mk) = checkArgs [k] [a] := by
  rw [rejection_map, ht]; exact (Option.or_none).symm

/-- The three formats of two positions. -/
theorem rejection_build_two {k l : Pos} {take : Arg → Except ConstructionReason α}
    {take' : Arg → Except ConstructionReason β} (ht : ∀ a, rejection (take a) = argError 1 k a)
    (ht' : ∀ b, rejection (take' b) = argError 2 l b) (mk : α → β → Instr) (a b : Arg) :
    rejection ((take a).bind fun x => (take' b).map (mk x)) = checkArgs [k, l] [a, b] := by
  rw [rejection_bind fun x => (rejection_map (mk x) _).trans (ht' b), ht]
  simp [checkArgs, firstArgError]

theorem rejection_buildR (mk : Desc → Instr) (args : List Arg) : rejection (buildR mk args) = checkArgs [.r] args := by
  match args with
  | [a] => exact rejection_build_one (rejection_takeR 1) mk a
  | [] | _ :: _ :: _ => rfl

theorem rejection_buildD (mk : Desc → Instr) (args : List Arg) : rejection (buildD mk args) = checkArgs [.d] args := by
  match args with
  | [a] => exact rejection_build_one (rejection_takeD 1) mk a
  | [] | _ :: _ :: _ => rfl

theorem rejection_buildN (mk : Word → Instr) (args : List Arg) : rejection (buildN mk args) = checkArgs [.n] args := by
  match args with
  | [a] => exact rejection_build_one (rejection_takeN 1) mk a
  | [] | _ :: _ :: _ => rfl

theorem rejection_buildRN (mk : Desc → Word → Instr) (args : List Arg) :
    rejection (buildRN mk args) = checkArgs [.r, .n] args := by
  match args with
  | [a, b] => exact rejection_build_two (rejection_takeR 1) (rejection_takeN 2) mk a b
  | [] | [_] | _ :: _ :: _ :: _ => rfl

theorem rejection_buildRR (mk : Desc → Desc → Instr) (args : List Arg) :
    rejection (buildRR mk args) = checkArgs [.r, .r] args := by
  match args with
  | [a, b] => exact rejection_build_two (rejection_takeR 1) (rejection_takeR 2) mk a b
  | [] | [_] | _ :: _ :: _ :: _ => rfl

theorem rejection_buildMov (mk : Desc → MoveSrc → Instr) (args : List Arg) :
    rejection (buildMov mk args) = checkArgs [.d, .dn] args := by
  match args with
  | [a, b] => exact rejection_build_two (rejection_takeD 1) (rejection_takeMoveSrc 2) mk a b
  | [] | [_] | _ :: _ :: _ :: _ => rfl

theorem rejection_buildRRR (mk : Desc → Desc → Desc → Instr) (args : List Arg) :
    rejection (buildRRR mk args) = checkArgs [.r, .r, .r] args := by
  match args with
  | [a, b, c] =>
    simp only [buildRRR]
    rw [rejection_bind fun x => (rejection_bind fun y => (rejection_map (mk x y) _).trans (rejection_takeR 3 c)),
      rejection_takeR, rejection_takeR]
    simp [checkArgs, firstArgError]
  | [] | [_] | [_, _] | _ :: _ :: _ :: _ :: _ => rfl

/-- Every opcode's builder rejects what the test of R92 rejects on that opcode's positions, for the same reason. -/
theorem rejection_construct (op : Opcode) (args : List Arg) :
    rejection (construct op args) = checkArgs op.positions args := by
  cases op with
  | add | mul => exact rejection_buildRRR _ args
  | increment | decrement | push | pop => exact rejection_buildR _ args
  | load => exact rejection_buildRN _ args
  | move => exact rejection_buildMov _ args
  | call | jump | input => exact rejection_buildN _ args
  | ret | halt => exact rejection_buildNone _ args
  | testEquals => exact rejection_buildRR _ args
  | echo => exact rejection_buildD _ args

/-- A record that names an opcode is checked as its arguments are. -/
theorem decode_of_name {r : RawInstr} {op : Opcode} (h : op.name = r.name) :
    decode r = (construct op r.args).mapError (ConstructionError.mk r.name) :=
  decode_some (by rw [← h, Opcode.ofName_name])

theorem decode_error_of_checkArgs {r : RawInstr} {op : Opcode} {e : ConstructionReason} (h : op.name = r.name)
    (he : checkArgs op.positions r.args = some e) : decode r = .error ⟨r.name, e⟩ := by
  rw [decode_of_name h, rejection_eq_some ((rejection_construct op r.args).trans he)]; rfl

theorem decode_ok_of_checkArgs {r : RawInstr} {op : Opcode} (h : op.name = r.name)
    (hn : checkArgs op.positions r.args = none) : ∃ i, decode r = .ok i ∧ i.opcode = op ∧ i.args = r.args := by
  obtain ⟨i, hi⟩ := rejection_eq_none ((rejection_construct op r.args).trans hn)
  obtain ⟨hop, hargs, -⟩ := construct_ok hi
  exact ⟨i, by rw [decode_of_name h, hi]; rfl, hop, hargs⟩

theorem decode_unknown {r : RawInstr} (h : ∀ op : Opcode, op.name ≠ r.name) :
    decode r = .error ⟨r.name, .unknownOpcode⟩ :=
  decode_none (Option.eq_none_iff_forall_ne_some.mpr fun op hop => h op (Opcode.name_of_ofName hop))

/-! ### Text -/

theorem MoveSrc.arg_ne_txt (m : MoveSrc) (x : Text) : m.arg ≠ .txt x := by cases m <;> exact nofun

/-- An operand is a descriptor or a literal. -/
theorem Instr.txt_not_mem_args (i : Instr) (x : Text) : Arg.txt x ∉ i.args := by
  cases i with
  | move dst src => simp [Instr.args, (src.arg_ne_txt x).symm]
  | add | mul | increment | decrement | load | push | pop | call | ret | jump | testEquals | echo | input | halt =>
    simp [Instr.args]

end Sys2Proof
end

section
/-! The statements of spec/30_encoding.md. -/

namespace Sys2Proof

/-- Settles O4: the record names the instruction's opcode, whose builder makes the instruction from its arguments. -/
theorem decodeOfEncodeIsIdentity : Obligations.DecodeOfEncodeIsIdentity := by
  intro i h
  rw [decode_some (Opcode.ofName_name i.opcode)]
  exact congrArg (Except.mapError _) (construct_args h)

/-- Settles O5: the builder keeps the name's opcode and the arguments, and an opcode has one name. -/
theorem encodeOfDecodeIsIdentity : Obligations.EncodeOfDecodeIsIdentity := by
  intro r i h
  obtain ⟨op, hop, hc⟩ := decode_ok h
  obtain ⟨rfl, hargs, hwf⟩ := construct_ok hc
  refine ⟨?_, hwf⟩
  rw [encode, Opcode.name_of_ofName hop, hargs]

/-- Settles O1: the fields of the formula do not overlap, so it is a sum, and each field of the codec is a remainder of
a quotient of it. -/
theorem descriptorEncoderRoundTrip : Obligations.DescriptorEncoderRoundTrip := by
  intro i o b hi hlo hhi
  have hf : (o % 65536).toNat < 65536 := by omega
  have hsum := (Desc.toNat_enc hi o b).trans (enc_formula_eq_sum hi hf b)
  have hb := b.toNat_le
  refine ⟨Desc.toNat_enc hi o b, by omega, ?_, ?_, ?_⟩
  · rw [Desc.idx_eq_mod]; omega
  · have hfield : Desc.offField (Desc.enc i o b) = BitVec.ofInt 16 o := by
      apply BitVec.eq_of_toNat_eq
      rw [Desc.toNat_offField, BitVec.toNat_ofInt]
      omega
    rw [Desc.toInt_off, hfield]
    exact BitVec.toInt_ofInt_eq_self (by decide) hlo (by omega)
  · rw [Bool.eq_iff_iff, Desc.ind_iff, hsum]
    cases b <;> simp <;> omega

/-- Settles O2: each field is a remainder of a quotient of the descriptor, and sign extension keeps the integer of the
offset field. -/
theorem descriptorFieldsReadTheirBits : Obligations.DescriptorFieldsReadTheirBits := by
  intro d
  have hoff : (Desc.off d).toInt =
      (let f := d.toNat / 256 % 65536; if f < 0x8000 then (f : Int) else (f : Int) - 0x10000) := by
    rw [Desc.toInt_off, BitVec.toInt_eq_toNat_cond, Desc.toNat_offField]
    exact if_congr (by omega) rfl rfl
  have hidx := Desc.idx_eq_mod d
  refine ⟨hidx, by omega, hoff, ?_, Desc.ind_iff d⟩
  rw [Desc.toInt_off]
  exact ⟨(Desc.offField d).le_toInt, Int.le_of_lt_add_one (Desc.offField d).toInt_lt⟩

/-- Settles O3: each field is a remainder of a quotient by numbers below bit 25, and a direct access uses only the
index. -/
theorem unusedDescriptorBitsHaveNoEffect : Obligations.UnusedDescriptorBitsHaveNoEffect := by
  refine ⟨fun d e h => ⟨?_, ?_, ?_⟩, fun d e hd he hi s => ⟨?_, fun site c => ?_⟩⟩
  · rw [Desc.idx_eq_mod, Desc.idx_eq_mod]; omega
  · apply Desc.off_congr
    rw [Desc.toNat_offField, Desc.toNat_offField]
    omega
  · rw [Bool.eq_iff_iff, Desc.ind_iff, Desc.ind_iff]; omega
  · rw [Machine.resolve_direct hd, Machine.resolve_direct he, hi]
  · rw [Machine.assign_direct site c hd, Machine.assign_direct site c he, hi]

/-- Settles O6: the builder of each opcode rejects what the test on that opcode's positions rejects. -/
theorem constructionCheckFollowsItsOrder : Obligations.ConstructionCheckFollowsItsOrder := by
  refine fun r => ⟨decode_unknown, fun op h => ⟨fun hlen => ?_, fun hlen => ⟨fun e he => ?_, fun hn => ?_⟩⟩⟩
  · exact decode_error_of_checkArgs h (if_neg hlen)
  · exact decode_error_of_checkArgs h ((if_pos hlen).trans he)
  · exact decode_ok_of_checkArgs h ((if_pos hlen).trans hn)

/-- Settles O7: a record that decodes is the record of an instruction, whose arguments are descriptors and literals. -/
theorem textArgumentsAreNeverBuilt : Obligations.TextArgumentsAreNeverBuilt := by
  refine ⟨fun r x hx => ?_, Instr.txt_not_mem_args⟩
  cases h : decode r with
  | error e => exact ⟨e, rfl⟩
  | ok i =>
    obtain ⟨rfl, -⟩ := encodeOfDecodeIsIdentity r i h
    exact absurd hx (i.txt_not_mem_args x)

/-- Settles O8: each record is, bit for bit, the record of the well-formed instruction named. -/
theorem specRecordsDecode : Obligations.SpecRecordsDecode :=
  ⟨decodeOfEncodeIsIdentity (.add 0 1 2) rfl, decodeOfEncodeIsIdentity (.move (Desc.enc 1 2 true) (.num 7)) rfl,
    decodeOfEncodeIsIdentity (.push (Desc.enc 2 0 false)) rfl, decodeOfEncodeIsIdentity (.jump 7) rfl,
    decodeOfEncodeIsIdentity (.echo (Desc.enc 1 0 true)) rfl, decodeOfEncodeIsIdentity .halt rfl⟩

end Sys2Proof
end

section
/-! Two direct reads in a row, and the arithmetic actions built on direct reads (spec/20_memory.md R55, R56;
spec/40_arithmetic.md R110 to R113). -/

namespace Sys2Proof.Machine

variable {β : Type} {s t : State}

/-- An instruction whose pseudocode ends in an error raises that error. -/
theorem raises_of_err {i : Instr} {m : Act β} {e : FatalError} (hx : exec i s = finish (m s)) (hm : m s = .err e t) :
    Raises i s e :=
  ⟨t.raise e, by rw [hx, hm, finish_err], State.raise_run t e⟩

/-! ### Direct reads -/

theorem resolve_direct_ok {d : Desc} {c : Cell} (hd : Desc.ind d = false) (hc : s.regs[Desc.idx d]? = some c) :
    resolve d s = .ok c.lazyZero (s.setReg (Desc.idx d) c.lazyZero) := by
  rw [resolve_direct hd, resolveReg_ok hc]

theorem resolve_direct_err {d : Desc} (hd : Desc.ind d = false) (hi : s.nRegs ≤ Desc.idx d) :
    resolve d s = .err (.registerOutOfRange (Desc.idx d)) s := by
  rw [resolve_direct hd, resolveReg_err hi]

/-- What a register reads as through the accessor is not changed by another such read, of the same register or not. -/
theorem State.setReg_lazyZero_get {i k : Nat} {c v : Cell} (hi : s.regs[i]? = some c) (hk : s.regs[k]? = some v) :
    ∃ w, (s.setReg i c.lazyZero).regs[k]? = some w ∧ w.lazyZero = v.lazyZero := by
  by_cases hki : k = i
  · subst hki
    obtain rfl : c = v := Option.some.inj (hi.symm.trans hk)
    exact ⟨c.lazyZero, State.setReg_get_self _ (State.nRegs_lt_of_get hi), Cell.lazyZero_lazyZero c⟩
  · exact ⟨v, by rw [State.setReg_get_of_ne _ hki, hk], rfl⟩

section TwoReads

variable {d e : Desc} {f : Cell → Cell → Act β} (hd : Desc.ind d = false) (he : Desc.ind e = false)
include hd

theorem twoReads_first_err (hi : s.nRegs ≤ Desc.idx d) :
    ((resolve d).bind fun a => (resolve e).bind (f a)) s = .err (.registerOutOfRange (Desc.idx d)) s :=
  Act.bind_err (resolve_direct_err hd hi)

include he

theorem twoReads_second_err {va : Cell} (ha : s.regs[Desc.idx d]? = some va) (hi : s.nRegs ≤ Desc.idx e) :
    ((resolve d).bind fun a => (resolve e).bind (f a)) s =
      .err (.registerOutOfRange (Desc.idx e)) (s.setReg (Desc.idx d) va.lazyZero) := by
  rw [Act.bind_ok (resolve_direct_ok hd ha), Act.bind_err (resolve_direct_err he (by simpa using hi))]

/-- Both values are those of the state before the reads, also where the two descriptors name one register. -/
theorem twoReads_ok {va vb : Cell} (ha : s.regs[Desc.idx d]? = some va) (hb : s.regs[Desc.idx e]? = some vb) :
    ((resolve d).bind fun a => (resolve e).bind (f a)) s =
      f va.lazyZero vb.lazyZero ((s.setReg (Desc.idx d) va.lazyZero).setReg (Desc.idx e) vb.lazyZero) := by
  obtain ⟨w, hw, hwb⟩ := State.setReg_lazyZero_get ha hb
  rw [Act.bind_ok (resolve_direct_ok hd ha), Act.bind_ok (resolve_direct_ok he hw), hwb]

end TwoReads

/-- The registers after two reads: the two that were read hold their values with `Unset` made zero. -/
theorem twoReads_get {i j : Nat} {va vb : Cell} (ha : s.regs[i]? = some va) (hb : s.regs[j]? = some vb) (k : Nat) :
    ((s.setReg i va.lazyZero).setReg j vb.lazyZero).regs[k]? =
      if k = i ∨ k = j then s.regs[k]?.map Cell.lazyZero else s.regs[k]? := by
  by_cases hj : k = j
  · subst hj
    rw [State.setReg_get_self _ (by simpa using State.nRegs_lt_of_get hb), if_pos (.inr rfl), hb, Option.map_some]
  · rw [State.setReg_get_of_ne _ hj]
    by_cases hi : k = i
    · subst hi
      rw [State.setReg_get_self _ (State.nRegs_lt_of_get ha), if_pos (.inl rfl), ha, Option.map_some]
    · rw [State.setReg_get_of_ne _ hi, if_neg (not_or.mpr ⟨hi, hj⟩)]

/-! ### The shape of `add` and `mul` -/

section BinaryOp

variable {f : Word → Word → Word} {site1 site2 : Site} {rd rs1 rs2 : Desc} {va vb : Cell} {na nb : Word}
  (h1 : Desc.ind rs1 = false) (h2 : Desc.ind rs2 = false)
  (ha : s.regs[Desc.idx rs1]? = some va) (hb : s.regs[Desc.idx rs2]? = some vb)
include h1 h2 ha hb

/-- The first source is checked after both reads. -/
theorem binaryOp_src1_err (hn : ∀ n, va.lazyZero ≠ .int n) :
    binaryOp f site1 site2 rd rs1 rs2 s = .err (.typeMismatch site1 va.lazyZero.kind)
      ((s.setReg (Desc.idx rs1) va.lazyZero).setReg (Desc.idx rs2) vb.lazyZero) := by
  rw [binaryOp, twoReads_ok h1 h2 ha hb, Act.bind_err (asInt_err site1 _ hn)]

theorem binaryOp_src2_err (hna : va.lazyZero = .int na) (hn : ∀ n, vb.lazyZero ≠ .int n) :
    binaryOp f site1 site2 rd rs1 rs2 s = .err (.typeMismatch site2 vb.lazyZero.kind)
      ((s.setReg (Desc.idx rs1) va.lazyZero).setReg (Desc.idx rs2) vb.lazyZero) := by
  rw [binaryOp, twoReads_ok h1 h2 ha hb, hna, Act.bind_ok (asInt_int site1 na _), Act.bind_err (asInt_err site2 _ hn)]

/-- Past its checks the action is the write of the result. -/
theorem binaryOp_ints (hna : va.lazyZero = .int na) (hnb : vb.lazyZero = .int nb) :
    binaryOp f site1 site2 rd rs1 rs2 s = writeInt (Desc.idx rd) (f na nb)
      ((s.setReg (Desc.idx rs1) va.lazyZero).setReg (Desc.idx rs2) vb.lazyZero) := by
  rw [binaryOp, twoReads_ok h1 h2 ha hb, hna, hnb, Act.bind_ok (asInt_int site1 na _),
    Act.bind_ok (asInt_int site2 nb _)]

end BinaryOp

/-- An instruction that is `binaryOp f` follows the rule of `add` and `mul` for the integer function that `f` is modulo
`2^32`. -/
theorem binaryRule_of_binaryOp {i : Desc → Desc → Desc → Instr} {site1 site2 : Site} {f : Word → Word → Word}
    {g : Int → Int → Int} (hx : ∀ rd rs1 rs2 s, exec (i rd rs1 rs2) s = finish (binaryOp f site1 site2 rd rs1 rs2 s))
    (hf : ∀ na nb, wrap (g na.toInt nb.toInt) = f na nb) : BinaryRule i site1 site2 g := by
  intro s rd rs1 rs2 _ h1 h2
  refine ⟨fun hi => ?range1, fun hi hj => ?range2, fun va vb ha hb =>
    ⟨fun x hva => ?text1, fun na x hna hvb => ?text2, fun na nb hna hnb => ⟨fun hd => ?rangeD, fun hd => ?completes⟩⟩⟩
  case range1 => exact raises_of_err (hx rd rs1 rs2 s) (twoReads_first_err h1 hi)
  case range2 =>
    exact raises_of_err (hx rd rs1 rs2 s) (twoReads_second_err h1 h2 (List.getElem?_eq_getElem hi) hj)
  case text1 =>
    subst hva
    exact raises_of_err (hx rd rs1 rs2 s) (binaryOp_src1_err h1 h2 ha hb nofun)
  case text2 =>
    subst hvb
    exact raises_of_err (hx rd rs1 rs2 s) (binaryOp_src2_err h1 h2 ha hb hna nofun)
  case rangeD =>
    exact raises_of_err (hx rd rs1 rs2 s)
      ((binaryOp_ints h1 h2 ha hb hna hnb).trans (writeInt_err _ (by simpa using hd)))
  case completes =>
    refine ⟨((s.setReg (Desc.idx rs1) va.lazyZero).setReg (Desc.idx rs2) vb.lazyZero).setReg (Desc.idx rd)
      (.int (f na nb)), ?_, rfl, fun k => ?_⟩
    · rw [hx, binaryOp_ints h1 h2 ha hb hna hnb, writeInt_ok _ (by simpa using hd), finish_ok]
    · rw [hf]
      split
      next hk => subst hk; exact State.setReg_get_self _ (by simpa using hd)
      next hk => rw [State.setReg_get_of_ne _ hk, twoReads_get ha hb]

/-! ### The shape of `increment` and `decrement` -/

/-- An instruction that is `unaryOp f` follows the rule of `increment` and `decrement` for the integer function that `f`
is modulo `2^32`. The register that is read is the one that is written, so the destination needs no check. -/
theorem unaryRule_of_unaryOp {i : Desc → Instr} {site : Site} {f : Word → Word} {g : Int → Int}
    (hx : ∀ r s, exec (i r) s = finish (unaryOp f site r s)) (hf : ∀ n, wrap (g n.toInt) = f n) :
    UnaryRule i site g := by
  intro s r hr
  refine ⟨fun hi => ?range, fun x hv => ?text, fun v n hv hn => ?completes⟩
  case range => exact raises_of_err (hx r s) (Act.bind_err (resolve_direct_err hr hi))
  case text =>
    exact raises_of_err (hx r s) ((Act.bind_ok (resolve_direct_ok hr hv)).trans (Act.bind_err (asInt_err site _ nofun)))
  case completes =>
    have hlt := State.nRegs_lt_of_get hv
    refine ⟨s.setReg (Desc.idx r) (.int (f n)), ?_, rfl, fun k => ?_⟩
    · rw [hx, unaryOp, Act.bind_ok (resolve_direct_ok hr hv), hn, Act.bind_ok (asInt_int site n _),
        writeInt_ok _ (by simpa using hlt), State.setReg_setReg, finish_ok]
    · rw [State.setReg_get, if_pos hlt, hf]

end Sys2Proof.Machine
end

section
/-! The statements of spec/40_arithmetic.md. -/

namespace Sys2Proof.Machine

/-- Settles O19: `add` is the shared shape of two direct reads, two checks and a write; its words add as integers do
modulo `2^32`. -/
theorem addRule : Obligations.AddRule :=
  binaryRule_of_binaryOp (fun _ _ _ _ => rfl) fun na nb => by rw [wrap_add, wrap_toInt, wrap_toInt]

/-- Settles O20: as for `add`, with the product. -/
theorem mulRule : Obligations.MulRule :=
  binaryRule_of_binaryOp (fun _ _ _ _ => rfl) fun na nb => by rw [wrap_mul, wrap_toInt, wrap_toInt]

/-- Settles O21: `increment` is the shared shape of one direct read, a check and a write to the same register. -/
theorem incrementRule : Obligations.IncrementRule :=
  unaryRule_of_unaryOp (fun _ _ => rfl) fun n => by rw [wrap_add, wrap_toInt]; rfl

/-- Settles O22: as for `increment`, with the difference. -/
theorem decrementRule : Obligations.DecrementRule :=
  unaryRule_of_unaryOp (fun _ _ => rfl) fun n => by rw [wrap_sub, wrap_toInt]; rfl

end Sys2Proof.Machine
end

section
/-! Data movement: an instruction whose last statement is a register or a memory write, and how `load` and `move` come
to theirs (spec/41_data_movement.md R120, R121). -/

namespace Sys2Proof.Machine

variable {s s1 : State}

/-! ### An instruction that ends in a write -/

/-- The last statement may run in another state than the instruction began in. -/
theorem raises_of_result {β : Type} {i : Instr} {e : FatalError} {r : Res β} (hx : exec i s = finish r)
    (hr : r = .err e s1) : Raises i s e :=
  raises_of_err (m := fun _ => r) hx hr

section RegisterWrite

variable {i : Instr} {site : Site} {r : Nat} {c : Cell} (hx : exec i s = finish (writeReg site r c s1))
include hx

theorem raises_of_writeReg_range (hr : s1.nRegs ≤ r) : Raises i s (.registerOutOfRange r) :=
  raises_of_result hx (writeReg_err site c hr)

theorem raises_of_writeReg_record (hr : r < s1.nRegs) {j : Instr} (hc : c = .instr j) :
    Raises i s (.typeMismatch site .instr) := by
  subst hc
  exact raises_of_result hx (writeReg_instr site j hr)

theorem completes_of_writeReg (hr : r < s1.nRegs) (hc : ∀ j, c ≠ .instr j) :
    ∃ t, exec i s = .next t ∧ t = { s1 with regs := t.regs } ∧
      ∀ k, t.regs[k]? = if k = r then some c else s1.regs[k]? := by
  refine ⟨s1.setReg r c, ?_, rfl, fun k => ?_⟩
  · rw [hx, writeReg_ok site hr (Cell.isData_of_ne_instr hc), finish_ok]
  · rw [State.setReg_get, if_pos hr]

end RegisterWrite

section MemoryWrite

variable {i : Instr} {a : Word} {c : Cell} (hx : exec i s = finish (memWrite a c s1))
include hx

theorem raises_of_memWrite_range (ha : ¬ s1.InMem a) : Raises i s (.memoryOutOfRange a) :=
  raises_of_result hx (memWrite_err c ha)

theorem completes_of_memWrite (ha : s1.InMem a) :
    ∃ t, exec i s = .next t ∧ t = { s1 with mem := t.mem } ∧
      ∀ b, t.mem.read b = if b = a.toNat then c else s1.mem.read b := by
  refine ⟨s1.setCell a c, ?_, rfl, fun b => Memory.read_write s1.mem a.toNat b c⟩
  rw [hx, memWrite_ok c ha, finish_ok]

end MemoryWrite

/-! ### `load` -/

variable {rd dst : Desc} {addr a : Word} {src : MoveSrc} {v : Cell} {e : FatalError}

theorem load_raises_range (h : ¬ s.InMem addr) : Raises (.load rd addr) s (.memoryOutOfRange addr) :=
  raises_of_result rfl (Act.bind_err (memRead_err h))

/-- In range, `load` is the register write of the raw cell. -/
theorem exec_load_of_inMem (h : s.InMem addr) :
    exec (.load rd addr) s = finish (writeReg .loadDst (Desc.idx rd) (s.cellAt addr) s) :=
  congrArg finish (Act.bind_ok (memRead_ok h))

/-! ### `move` once its source has been read -/

theorem moveSource_of_sourceGives (h : SourceGives src s v s1) : moveSource src s = .ok v s1 := by
  cases src with
  | num n => obtain ⟨rfl, rfl⟩ := h; rfl
  | reg d => exact h

theorem move_raises_of_source {d : Desc} (h : resolve d s = .err e s1) : Raises (.move dst (.reg d)) s e :=
  raises_of_result rfl (Act.bind_err (m := moveSource (.reg d)) h)

theorem exec_move_of_sourceGives (h : SourceGives src s v s1) :
    exec (.move dst src) s = finish (assign .moveDst dst v s1) :=
  congrArg finish (Act.bind_ok (moveSource_of_sourceGives h))

theorem exec_move_direct (h : SourceGives src s v s1) (hd : Desc.ind dst = false) :
    exec (.move dst src) s = finish (writeReg .moveDst (Desc.idx dst) v s1) := by
  rw [exec_move_of_sourceGives h, assign_direct .moveDst v hd]

theorem exec_move_indirect (h : SourceGives src s v s1) (hd : Desc.ind dst = true) :
    exec (.move dst src) s = finish (((ea dst).bind fun a => memWrite a v) s1) := by
  rw [exec_move_of_sourceGives h, assign_indirect .moveDst v hd]

/-- Once the address is computed, an indirect `move` is the memory write of the source's value. -/
theorem exec_move_at (h : SourceGives src s v s1) (hd : Desc.ind dst = true) (ha : ea dst s1 = .ok a s1) :
    exec (.move dst src) s = finish (memWrite a v s1) := by
  rw [exec_move_indirect h hd, Act.bind_ok ha]

/-! ### What reading the source leaves of the destination's operand -/

/-- `s1` is `s` but for lazy zeros: a read through the accessor changes registers and memory only, and keeps the
number of registers and every register that holds an integer. -/
structure State.ReadInto (s s1 : State) : Prop where
  frame : s1 = { s with regs := s1.regs, mem := s1.mem }
  nRegs : s1.nRegs = s.nRegs
  int : ∀ (k : Nat) (n : Word), s.regs[k]? = some (.int n) → s1.regs[k]? = some (.int n)

theorem State.ReadInto.refl (s : State) : s.ReadInto s := ⟨rfl, rfl, fun _ _ h => h⟩

theorem State.ReadInto.setReg {i : Nat} {c : Cell} (hc : s.regs[i]? = some c) :
    s.ReadInto (s.setReg i c.lazyZero) :=
  ⟨rfl, State.setReg_nRegs .., fun _ _ => State.setReg_lazyZero_get_int hc⟩

theorem State.ReadInto.setCell (s : State) (a : Word) (c : Cell) : s.ReadInto (s.setCell a c) :=
  ⟨rfl, rfl, fun _ _ h => h⟩

theorem State.ReadInto.inMem (h : s.ReadInto s1) : s1.InMem a ↔ s.InMem a := by
  rw [h.frame]

/-- A descriptor that names a readable cell resolves to it, `Unset` read as zero. -/
theorem resolve_of_namesCell {d : Desc} {c : Cell} (h : NamesCell d s c) :
    ∃ t, resolve d s = .ok c.lazyZero t ∧ s.ReadInto t := by
  obtain ⟨hd, hc⟩ | ⟨hd, b, hb, hin, rfl⟩ := h
  · exact ⟨_, resolve_direct_ok hd hc, .setReg hc⟩
  · refine ⟨_, by rw [resolve_indirect hd, Act.bind_ok (ea_ok hb), resolveMem_ok hin], ?_⟩
    split
    · exact .setCell s _ _
    · exact .refl s

theorem sourceGives_of_sourceReads (h : SourceReads src s v) : ∃ t, SourceGives src s v t ∧ s.ReadInto t := by
  cases src with
  | num n => exact ⟨s, ⟨h, rfl⟩, .refl s⟩
  | reg d =>
    obtain ⟨c, hc, rfl⟩ := h
    exact resolve_of_namesCell hc

/-- A never-written register that the source reads directly holds zero afterwards. -/
theorem sourceGives_reg_get_zero {d : Desc} (h : SourceGives (.reg d) s v s1) (hd : Desc.ind d = false)
    (hu : s.regs[Desc.idx d]? = some .unset) : s1.regs[Desc.idx d]? = some (.int 0) := by
  obtain ⟨-, rfl⟩ := Res.ok.inj (h.symm.trans (resolve_direct_ok hd hu))
  exact State.setReg_get_self _ (State.nRegs_lt_of_get hu)

end Sys2Proof.Machine
end

section
/-! The statements of spec/41_data_movement.md. -/

namespace Sys2Proof.Machine

/-- Settles O23: past the range check of the address, `load` is a register write of the raw cell. -/
theorem loadRule : Obligations.LoadRule := fun _ _ _ _ =>
  ⟨load_raises_range,
    fun ha hr => raises_of_writeReg_range (exec_load_of_inMem ha) hr,
    fun ha hr _ hc => raises_of_writeReg_record (exec_load_of_inMem ha) hr hc,
    fun ha hr hc => completes_of_writeReg (exec_load_of_inMem ha) hr hc⟩

/-- Settles O24: past the source, `move` is a register write, or the address computation and a memory write, in the
state that the source left. -/
theorem moveRule : Obligations.MoveRule := by
  intro s dst src
  refine ⟨fun d e s1 hsrc he => ?source, fun v s1 hv =>
    ⟨fun hd hr => ?range, fun hd hr j hj => ?record, fun hd hr hc => ?register, fun hd e s2 he => ?address,
      fun hd a ha => ⟨fun hout => ?outside, fun hin => ?cell⟩⟩⟩
  case source => subst hsrc; exact move_raises_of_source he
  case range => exact raises_of_writeReg_range (exec_move_direct hv hd) hr
  case record => exact raises_of_writeReg_record (exec_move_direct hv hd) hr hj
  case register => exact completes_of_writeReg (exec_move_direct hv hd) hr hc
  case address => exact raises_of_result (exec_move_indirect hv hd) (Act.bind_err he)
  case outside => exact raises_of_memWrite_range (exec_move_at hv hd ha) hout
  case cell => exact completes_of_memWrite (exec_move_at hv hd ha) hin

/-- Settles O25: reading the source keeps the destination usable, or makes its base register zero, and then `move`
completes by its rule. -/
theorem moveCompletesOnUsableOperands : Obligations.MoveCompletesOnUsableOperands := by
  intro s dst src v h
  obtain ⟨s1, hv, hread⟩ := sourceGives_of_sourceReads h
  refine ⟨fun hd hr hc => ?register, fun hd b hb hin => ?cell⟩
  case register =>
    obtain ⟨t, ht, hframe, hregs⟩ := completes_of_writeReg (exec_move_direct hv hd) (hread.nRegs ▸ hr) hc
    refine ⟨t, ht, ?_, by rw [hregs, if_pos rfl]⟩
    rw [hframe, hread.frame]
  case cell =>
    have hbase : s1.regs[Desc.idx dst]? = some (.int b) := by
      obtain hb | ⟨hu, rfl, d, rfl, hdir, hidx⟩ := hb
      · exact hread.int _ _ hb
      · rw [← hidx] at hu ⊢
        exact sourceGives_reg_get_zero hv hdir hu
    obtain ⟨t, ht, hframe, hmem⟩ := completes_of_memWrite (exec_move_at hv hd (ea_ok hbase)) (hread.inMem.mpr hin)
    refine ⟨t, ht, ?_, by rw [hmem, if_pos rfl]⟩
    rw [hframe, hread.frame]

end Sys2Proof.Machine
end

section
/-! The stack and call instructions: what is left of each once its stack access has been done
(spec/42_stack_and_calls.md R130 to R133). -/

namespace Sys2Proof.Machine

variable {s s1 : State}

theorem wrap_toInt_add_one (n : Word) : wrap (n.toInt + 1) = n + 1 := by rw [wrap_add, wrap_toInt]; rfl

theorem wrap_toInt_sub_one (n : Word) : wrap (n.toInt - 1) = n - 1 := by rw [wrap_sub, wrap_toInt]; rfl

theorem State.setReg_get_of_lt {i : Nat} (c : Cell) (h : i < s.nRegs) (k : Nat) :
    (s.setReg i c).regs[k]? = if k = i then some c else s.regs[k]? := by
  rw [State.setReg_get, if_pos h]

theorem State.regs_set_of_get {i : Nat} {c : Cell} (h : s.regs[i]? = some c) : s.regs.set i c = s.regs := by
  obtain ⟨hi, rfl⟩ := List.getElem?_eq_some_iff.mp h
  exact List.set_getElem_self hi

theorem State.setCell_cellAt_of_ne {a b : Word} (c : Cell) (h : a ≠ b) : (s.setCell a c).cellAt b = s.cellAt b := by
  have hne : b.toNat ≠ a.toNat := fun hba => h (BitVec.eq_of_toNat_eq hba).symm
  rw [State.cellAt, State.setCell_mem, Memory.read_write, if_neg hne, State.cellAt]

/-! ### An instruction whose last statement is `SetPC` -/

section SetPc

variable {i : Instr} {v : Word} (hx : exec i s = finish (setPc v s1))
include hx

theorem raises_of_setPc (hv : v.toInt < 0) : Raises i s (.negativePC v) :=
  raises_of_result hx (setPc_err hv)

theorem exec_of_setPc (hv : 0 ≤ v.toInt) : exec i s = .next { s1 with pc := v } := by
  rw [hx, setPc_ok hv, finish_ok]

/-- `IncPC` adds one to the value that the instruction has set (R33). -/
theorem step_of_setPc (hv : 0 ≤ v.toInt) (hr : s.run = .running) (hm : s.InMem s.pc) (hc : s.cellAt s.pc = .instr i)
    (hr1 : s1.run = .running) : step s = .next { s1 with pc := v + 1 } :=
  step_of_exec_running hr hm hc (exec_of_setPc hx hv) hr1

end SetPc

/-! ### The target less one: only the least `Int32` wraps (D34, U24) -/

theorem toInt_sub_one (v : Word) :
    (v - 1).toInt = if v.toInt = -2 ^ 31 then 2 ^ 31 - 1 else v.toInt - 1 := by
  have hle := v.le_toInt
  have hlt := v.toInt_lt
  rw [BitVec.toInt_sub, show (1 : Word).toInt = 1 from rfl, Int.bmod_def]
  split <;> omega

theorem toInt_sub_one_neg_of_target {v : Word} (h : v.toInt ≤ 0) (hne : v.toInt ≠ -2 ^ 31) : (v - 1).toInt < 0 := by
  rw [toInt_sub_one, if_neg hne]
  omega

theorem toInt_sub_one_nonneg_of_target {v : Word} (h : 1 ≤ v.toInt ∨ v.toInt = -2 ^ 31) : 0 ≤ (v - 1).toInt := by
  rw [toInt_sub_one]
  split <;> omega

/-! ### `push` and `call` -/

/-- `s` after a push of `v` at the stack pointer `sp` (R60). -/
def State.pushed (s : State) (sp : Word) (v : Cell) : State := (s.setCell sp v).setReg s.spIndex (.int (sp - 1))

variable {c v : Cell} {sp a target : Word} {r : Desc}

theorem stackPush_eq_pushed (v : Cell) (hsp : s.regs[s.spIndex]? = some (.int sp)) (hin : s.InMem sp) :
    stackPush v s = .ok () (s.pushed sp v) := stackPush_ok v hsp hin

theorem State.pushed_get (v : Cell) (hlt : s.spIndex < s.nRegs) (k : Nat) :
    (s.pushed sp v).regs[k]? = if k = s.spIndex then some (.int (sp - 1)) else s.regs[k]? :=
  State.setReg_get_of_lt (s := s.setCell sp v) _ hlt k

theorem State.pushed_read (v : Cell) (b : Nat) :
    (s.pushed sp v).mem.read b = if b = sp.toNat then v else s.mem.read b :=
  Memory.read_write s.mem sp.toNat b v

/-- What the stack pointer holds once a register has been read through the accessor: reading the stack pointer itself
makes an `Unset` one zero. -/
theorem State.setReg_lazyZero_get_eq {i k : Nat} (hi : s.regs[i]? = some v) (hk : s.regs[k]? = some c) :
    (s.setReg i v.lazyZero).regs[k]? = some (if i = k then c.lazyZero else c) := by
  split
  next hik =>
    subst hik
    obtain rfl : v = c := Option.some.inj (hi.symm.trans hk)
    exact State.setReg_get_self _ (State.nRegs_lt_of_get hi)
  next hik => rw [State.setReg_get_of_ne _ (Ne.symm hik), hk]

/-- Once its register has been read, `push` is the stack helper's push of the value read. -/
theorem exec_push_of_get (hr : Desc.ind r = false) (hv : s.regs[Desc.idx r]? = some v) :
    exec (.push r) s = finish (stackPush v.lazyZero (s.setReg (Desc.idx r) v.lazyZero)) :=
  congrArg finish (Act.bind_ok (resolve_direct_ok hr hv))

/-- Once its own address has been pushed, `call` is `SetPC` of the target less one. -/
theorem exec_call_of_sp (hsp : s.regs[s.spIndex]? = some (.int sp)) (hin : s.InMem sp) :
    exec (.call target) s = finish (setPc (target - 1) (s.pushed sp (.int s.pc))) :=
  congrArg finish (Act.bind_ok (stackPush_eq_pushed _ hsp hin))

/-- A step that calls leaves the target in `pc`, so that the next fetch is there (R132). -/
theorem step_call (hr : s.run = .running) (hm : s.InMem s.pc) (hc : s.cellAt s.pc = .instr (.call target))
    (htarget : 1 ≤ target.toInt) (hsp : s.regs[s.spIndex]? = some (.int sp)) (hin : s.InMem sp) :
    step s = .next { s.pushed sp (.int s.pc) with pc := target } := by
  have hnonneg := toInt_sub_one_nonneg_of_target (.inl htarget)
  rw [step_of_setPc (exec_call_of_sp hsp hin) hnonneg hr hm hc hr, BitVec.sub_add_cancel]

/-! ### `pop` and `ret` -/

section Pop

variable {i : Instr} {β : Type} {f : Cell → Act β} (hx : exec i s = finish (stackPop.bind f s))
include hx

theorem raises_of_stackPop_kind (hsp : s.regs[s.spIndex]? = some c) (hc : ∀ n, c ≠ .int n) :
    Raises i s (.typeMismatch .sp c.kind) :=
  raises_of_result hx (Act.bind_err (stackPop_kind hsp hc))

theorem raises_of_stackPop_range (hsp : s.regs[s.spIndex]? = some (.int sp)) (hout : ¬ s.InMem (sp + 1)) :
    Raises i s (.memoryOutOfRange (sp + 1)) :=
  raises_of_result hx (Act.bind_err (stackPop_range hsp hout))

theorem exec_of_stackPop_ok (hsp : s.regs[s.spIndex]? = some (.int sp)) (hin : s.InMem (sp + 1)) :
    exec i s = finish (f (s.cellAt (sp + 1)) (s.setReg s.spIndex (.int (sp + 1)))) := by
  rw [hx, Act.bind_ok (stackPop_ok hsp hin)]

end Pop

/-- Once the cell has been popped, `pop` is the register write of the raw cell. -/
theorem exec_pop_of_sp (hsp : s.regs[s.spIndex]? = some (.int sp)) (hin : s.InMem (sp + 1)) :
    exec (.pop r) s =
      finish (writeReg .popDst (Desc.idx r) (s.cellAt (sp + 1)) (s.setReg s.spIndex (.int (sp + 1)))) :=
  exec_of_stackPop_ok (f := fun c => writeReg .popDst (Desc.idx r) c) rfl hsp hin

theorem ret_raises_kind (hsp : s.regs[s.spIndex]? = some (.int sp)) (hin : s.InMem (sp + 1))
    (hc : ∀ n, s.cellAt (sp + 1) ≠ .int n) : Raises .ret s (.typeMismatch .ret (s.cellAt (sp + 1)).kind) :=
  raises_of_result (exec_of_stackPop_ok (f := fun c => (asInt .ret c).bind setPc) rfl hsp hin)
    (Act.bind_err (asInt_err .ret _ hc))

/-- Once an integer has been popped, `ret` is `SetPC` of it. -/
theorem exec_ret_of_sp {n : Word} (hsp : s.regs[s.spIndex]? = some (.int sp)) (hin : s.InMem (sp + 1))
    (hc : s.cellAt (sp + 1) = .int n) : exec .ret s = finish (setPc n (s.setReg s.spIndex (.int (sp + 1)))) := by
  rw [exec_of_stackPop_ok (f := fun c => (asInt .ret c).bind setPc) rfl hsp hin, hc, Act.bind_ok (asInt_int .ret n _)]

/-- A step that returns leaves the popped integer's successor in `pc` (R133). -/
theorem step_ret {n : Word} (hr : s.run = .running) (hm : s.InMem s.pc) (hret : s.cellAt s.pc = .instr .ret)
    (hsp : s.regs[s.spIndex]? = some (.int sp)) (hin : s.InMem (sp + 1)) (hc : s.cellAt (sp + 1) = .int n)
    (hn : 0 ≤ n.toInt) : step s = .next { s.setReg s.spIndex (.int (sp + 1)) with pc := n + 1 } :=
  step_of_setPc (exec_ret_of_sp hsp hin hc) hn hr hm hret hr

/-- A `ret` at `a` after a push of `n` finds `n` in the cell above the stack pointer, which goes back up (R62). -/
theorem step_ret_after_push {n : Word} (hr : s.run = .running) (hm : s.InMem a) (hret : s.cellAt a = .instr .ret)
    (hsp : s.regs[s.spIndex]? = some (.int sp)) (hin : s.InMem sp) (hne : sp ≠ a) (hn : 0 ≤ n.toInt) :
    step { s.pushed sp (.int n) with pc := a } = .next { s.setCell sp (.int n) with pc := n + 1 } := by
  have hback : sp - 1 + 1 = sp := BitVec.sub_add_cancel sp 1
  have hfetch : (s.pushed sp (.int n)).cellAt a = .instr .ret := (State.setCell_cellAt_of_ne (.int n) hne).trans hret
  have hpointer : (s.pushed sp (.int n)).regs[s.spIndex]? = some (.int (sp - 1)) :=
    State.setReg_get_self _ (State.nRegs_lt_of_get hsp)
  have hstep := step_ret (s := { s.pushed sp (.int n) with pc := a }) (n := n) hr hm hfetch hpointer
  rw [hback] at hstep
  rw [hstep hin (State.setCell_cellAt_self s sp (.int n)) hn]
  simp [State.pushed, State.setReg, State.regs_set_of_get hsp]

end Sys2Proof.Machine
end

section
/-! The statements of spec/42_stack_and_calls.md. -/

namespace Sys2Proof.Machine

/-- Settles O26: `push` is a direct read and then the stack helper's push, which finds the stack pointer as the read has
left it. -/
theorem pushRule : Obligations.PushRule := by
  intro s r hr
  refine ⟨fun hi => ?range, fun v c0 hv hc0 c hc => ?_⟩
  case range => exact raises_of_result rfl (Act.bind_err (resolve_direct_err hr hi))
  have hx := exec_push_of_get hr hv
  have hsp := State.setReg_lazyZero_get_eq hv hc0
  rw [← hc] at hsp
  refine ⟨fun hn => ?kind, ?_⟩
  case kind => exact raises_of_result hx (stackPush_kind _ hsp hn)
  rintro sp rfl
  refine ⟨fun hout => ?outside, fun hin => ?completes⟩
  case outside => exact raises_of_result hx (stackPush_range _ hsp hout)
  case completes =>
    refine ⟨(s.setReg (Desc.idx r) v.lazyZero).pushed sp v.lazyZero, ?_, rfl, fun k => ?_, State.pushed_read _⟩
    · rw [hx, stackPush_eq_pushed _ hsp hin, finish_ok]
    · rw [State.pushed_get _ (State.nRegs_lt_of_get hsp), State.setReg_get_of_lt _ (State.nRegs_lt_of_get hv),
        wrap_toInt_sub_one, State.setReg_spIndex]

/-- Settles O27: past the stack helper's pop, `pop` is a register write of the raw cell, which comes after the stack
pointer's and so stands where they are one register. -/
theorem popRule : Obligations.PopRule := by
  intro s r _ c hc
  refine ⟨fun hn => raises_of_stackPop_kind rfl hc hn, ?_⟩
  rintro sp a rfl ha
  rw [wrap_toInt_add_one] at ha
  subst ha
  refine ⟨fun hout => ?outside, fun hin hr => ?range, fun hin hr j hj => ?record, fun hin hr hdata => ?completes⟩
  case outside => exact raises_of_stackPop_range rfl hc hout
  case range => exact raises_of_writeReg_range (exec_pop_of_sp hc hin) (by simpa using hr)
  case record => exact raises_of_writeReg_record (exec_pop_of_sp hc hin) (by simpa using hr) hj
  case completes =>
    obtain ⟨t, ht, hframe, hregs⟩ := completes_of_writeReg (exec_pop_of_sp hc hin) (by simpa using hr) hdata
    refine ⟨t, ht, hframe, fun k => ?_⟩
    rw [hregs, State.setReg_get_of_lt _ (State.nRegs_lt_of_get hc)]

/-- Settles O28: past the stack helper's push, `call` is `SetPC` of the target less one. -/
theorem callRule : Obligations.CallRule := by
  intro s target c hc
  rw [wrap_toInt_sub_one]
  refine ⟨fun hn => raises_of_result rfl (Act.bind_err (stackPush_kind _ hc hn)), ?_⟩
  rintro sp rfl
  refine ⟨fun hout => ?outside, fun hin hle hne => ?negative, fun hin htarget => ?completes⟩
  case outside => exact raises_of_result rfl (Act.bind_err (stackPush_range _ hc hout))
  case negative => exact raises_of_setPc (exec_call_of_sp hc hin) (toInt_sub_one_neg_of_target hle hne)
  case completes =>
    refine ⟨{ s.pushed sp (.int s.pc) with pc := target - 1 }, ?_, rfl, fun k => ?_, State.pushed_read (.int s.pc)⟩
    · exact exec_of_setPc (exec_call_of_sp hc hin) (toInt_sub_one_nonneg_of_target htarget)
    · rw [wrap_toInt_sub_one]
      exact State.pushed_get _ (State.nRegs_lt_of_get hc) k

/-- Settles O29: past the stack helper's pop and the check of the popped cell, `ret` is `SetPC` of the integer. -/
theorem retRule : Obligations.RetRule := by
  intro s c hc
  refine ⟨fun hn => raises_of_stackPop_kind rfl hc hn, ?_⟩
  rintro sp a rfl ha
  rw [wrap_toInt_add_one] at ha
  subst ha
  refine ⟨fun hout => ?outside, fun hin hn => ?kind, fun hin v hv hneg => ?negative, fun hin v hv h0 => ?completes⟩
  case outside => exact raises_of_stackPop_range rfl hc hout
  case kind => exact ret_raises_kind hc hin hn
  case negative => exact raises_of_setPc (exec_ret_of_sp hc hin hv) hneg
  case completes =>
    exact ⟨{ s.setReg s.spIndex (.int (sp + 1)) with pc := v }, exec_of_setPc (exec_ret_of_sp hc hin hv) h0, rfl,
      State.setReg_get_of_lt _ (State.nRegs_lt_of_get hc), fun hr hm hret => step_ret hr hm hret hc hin hv h0⟩

/-- Settles O50: the call leaves its address in the cell above the lowered stack pointer, which is not the `ret`'s cell,
and the `ret` takes it from there. -/
theorem callThenRetReturns : Obligations.CallThenRetReturns := by
  intro s target sp hr hm hcall htarget hmt hret hsp hin hne
  exact ⟨_, _, step_call hr hm hcall htarget hsp hin, rfl, step_ret_after_push hr hmt hret hsp hin hne hm.1, rfl,
    fun b => Memory.read_write s.mem sp.toNat b (.int s.pc)⟩

end Sys2Proof.Machine
end

section
/-! The statements of spec/43_control_and_compare.md. -/

namespace Sys2Proof.Machine

/-- `testEquals` of two registers of the file: two direct reads, then the flag says whether the values read are equal
(R141). -/
theorem exec_testEquals_of_get {s : State} {ra rb : Desc} {va vb : Cell} (hra : Desc.ind ra = false)
    (hrb : Desc.ind rb = false) (ha : s.regs[Desc.idx ra]? = some va) (hb : s.regs[Desc.idx rb]? = some vb) :
    exec (.testEquals ra rb) s =
      .next { (s.setReg (Desc.idx ra) va.lazyZero).setReg (Desc.idx rb) vb.lazyZero with
        flag := valuesEqual va.lazyZero vb.lazyZero } :=
  congrArg finish (twoReads_ok (f := fun a b => setFlag (valuesEqual a b)) hra hrb ha hb)

/-- Settles O31: `testEquals` is two direct reads, which can only fail in range, and a write of the flag. -/
theorem testEqualsRule : Obligations.TestEqualsRule := by
  intro s ra rb hra hrb
  refine ⟨fun hi => ?rangeA, fun hi hj => ?rangeB, fun va vb ha hb => ?completes⟩
  case rangeA => exact raises_of_result rfl (twoReads_first_err hra hi)
  case rangeB => exact raises_of_result rfl (twoReads_second_err hra hrb (List.getElem?_eq_getElem hi) hj)
  case completes =>
    exact ⟨_, exec_testEquals_of_get hra hrb ha hb, rfl, decide_eq_true_iff, twoReads_get ha hb⟩

/-- Settles O30: `jump` is `SetPC` of the target less one, which is negative but for a positive target and the least
`Int32`; the latter is left in `pc`, where the fetch finds it outside memory. -/
theorem jumpRule : Obligations.JumpRule := by
  intro s target
  rw [wrap_toInt_sub_one]
  have hx : exec (.jump target) s = finish (setPc (target - 1) s) := rfl
  refine ⟨fun hle hne => ?negative, fun htarget => ⟨?effect, fun hr hm hc => ?nextFetch⟩, fun hmin hr => ?outside⟩
  case negative => exact raises_of_setPc hx (toInt_sub_one_neg_of_target hle hne)
  case effect => exact exec_jump (toInt_sub_one_nonneg_of_target htarget)
  case nextFetch =>
    rw [step_of_setPc hx (toInt_sub_one_nonneg_of_target htarget) hr hm hc hr, BitVec.sub_add_cancel]
  case outside =>
    have hout : ¬ ({ s with pc := target } : State).InMem target := fun hin => by
      have h0 : 0 ≤ target.toInt := hin.1
      omega
    exact step_of_fetch_err hr (fetch_range hout)

end Sys2Proof.Machine
end

section
/-! Integers as text: the decimal text that is written, and which lines are read (spec/44_io_and_halt.md R150, R151). -/

namespace Sys2Proof.Machine

/-! ### Reading -/

theorem digitVal_eq_some {c : Char} {v : Nat} :
    digitVal c = some v ↔ (48 ≤ c.toNat ∧ c.toNat ≤ 57) ∧ c.toNat - 48 = v := by
  unfold digitVal
  split
  next h => simp [h]
  next h => simp [h]

theorem parseDigits_eq_some {ds : Text} {acc v : Nat} : parseDigits acc ds = some v ↔
    (∀ c ∈ ds, 48 ≤ c.toNat ∧ c.toNat ≤ 57) ∧ ds.foldl (fun v c => 10 * v + (c.toNat - 48)) acc = v := by
  induction ds generalizing acc with
  | nil => simp [parseDigits]
  | cons c cs ih =>
    rw [parseDigits, List.forall_mem_cons, List.foldl_cons]
    cases h : digitVal c with
    | none =>
      have hc : ¬ (48 ≤ c.toNat ∧ c.toNat ≤ 57) := fun hc =>
        nomatch h.symm.trans (digitVal_eq_some.mpr ⟨hc, rfl⟩)
      simp [hc]
    | some d =>
      obtain ⟨hc, rfl⟩ := digitVal_eq_some.mp h
      exact ih.trans (by simp [hc])

theorem parseNat_eq_some {ds : Text} {v : Nat} : parseNat ds = some v ↔ IsDigits ds ∧ digitsValue ds = v := by
  cases ds with
  | nil => simp [parseNat, IsDigits]
  | cons c cs => simpa [parseNat, IsDigits, digitsValue] using parseDigits_eq_some (ds := c :: cs) (acc := 0)

theorem int32?_eq_some {z : Int} {n : Word} : int32? z = some n ↔ n.toInt = z := by
  have hle := n.le_toInt
  have hlt := n.toInt_lt
  refine ⟨fun h => ?_, fun h => ?_⟩
  · unfold int32? at h
    split at h
    · cases h
      exact (BitVec.toInt_ofInt z).trans (Int.bmod_eq_of_le (by omega) (by omega))
    · cases h
  · rw [int32?, if_pos (by omega), ← h, BitVec.ofInt_toInt]

/-- Each case of `ParseInt32` reads digits and gives their value the sign `f`. -/
theorem parseNat_bind_int32?_eq_some (f : Nat → Int) {ds : Text} {n : Word} :
    ((parseNat ds).bind fun v => int32? (f v)) = some n ↔ IsDigits ds ∧ n.toInt = f (digitsValue ds) := by
  simp [Option.bind_eq_some_iff, parseNat_eq_some, int32?_eq_some, and_assoc]

/-- A string of digits begins with no sign. -/
theorem parseInt32_of_isDigits {ds : Text} (h : IsDigits ds) :
    parseInt32 ds = (parseNat ds).bind fun v => int32? v := by
  obtain ⟨-, hdigits⟩ := h
  unfold parseInt32
  split
  next => exact absurd (hdigits '-' List.mem_cons_self) (by decide)
  next => exact absurd (hdigits '+' List.mem_cons_self) (by decide)
  next => rfl

/-- `ParseInt32` reads exactly the lines of R151's grammar whose value is an `Int32`. -/
theorem parseInt32_eq_some {t : Text} {n : Word} : parseInt32 t = some n ↔ IsIntegerLine t n.toInt := by
  constructor
  · intro h
    unfold parseInt32 at h
    split at h
    next ds =>
      obtain ⟨hds, hn⟩ := (parseNat_bind_int32?_eq_some fun v => -(v : Int)).mp h
      exact ⟨['-'], ds, .inr (.inr rfl), rfl, hds, by simpa using hn⟩
    next ds =>
      obtain ⟨hds, hn⟩ := (parseNat_bind_int32?_eq_some Nat.cast).mp h
      exact ⟨['+'], ds, .inr (.inl rfl), rfl, hds, by simpa using hn⟩
    next =>
      obtain ⟨hds, hn⟩ := (parseNat_bind_int32?_eq_some Nat.cast).mp h
      exact ⟨[], t, .inl rfl, rfl, hds, by simpa using hn⟩
  · rintro ⟨_, ds, rfl | rfl | rfl, rfl, hds, hn⟩
    · rw [parseInt32_of_isDigits hds]
      exact (parseNat_bind_int32?_eq_some Nat.cast).mpr ⟨hds, by simpa using hn⟩
    · exact (parseNat_bind_int32?_eq_some Nat.cast).mpr ⟨hds, by simpa using hn⟩
    · exact (parseNat_bind_int32?_eq_some fun v => -(v : Int)).mpr ⟨hds, by simpa using hn⟩

theorem parseInt32_eq_none {t : Text} (h : ¬ ∃ n : Word, IsIntegerLine t n.toInt) : parseInt32 t = none :=
  Option.eq_none_iff_forall_ne_some.mpr fun n hn => h ⟨n, parseInt32_eq_some.mp hn⟩

/-! ### Writing -/

theorem isDigits_natDigits {fuel : Nat} (hf : 0 < fuel) (n : Nat) : IsDigits (natDigits fuel n) := by
  refine ⟨natDigits_ne_nil n hf, fun c hc => ?_⟩
  obtain ⟨d, hd, rfl⟩ := natDigits_digit hc
  rw [digitChar_toNat hd]
  omega

theorem digitsValue_natDigits {fuel n : Nat} (hf : 0 < fuel) (h : n < 10 ^ fuel) :
    digitsValue (natDigits fuel n) = n :=
  (parseDigits_eq_some.mp (parseDigits_natDigits hf h)).2

/-- The first digit is that of the number's highest quotient by ten, which is not zero. -/
theorem natDigits_head_ne_zero {fuel n : Nat} (h0 : 0 < n) (h : n < 10 ^ fuel) :
    (natDigits fuel n).head? ≠ some '0' := by
  induction fuel generalizing n with
  | zero => rw [pow_zero] at h; omega
  | succ k ih =>
    unfold natDigits
    split
    next h10 =>
      intro hhead
      have hdigit : digitChar n = '0' := Option.some.inj hhead
      have hval : 48 = 48 + n := by rw [← digitChar_toNat h10, hdigit]; rfl
      omega
    next h10 =>
      have hk : 0 < k := Nat.pos_of_ne_zero (by rintro rfl; omega)
      rw [List.head?_append_of_ne_nil _ (natDigits_ne_nil _ hk)]
      exact ih (by omega) (by rw [pow_succ] at h; omega)

/-- The model's printer writes R150's text. -/
theorem isDecimal_decimal (n : Word) : IsDecimal n.toInt (decimal n) := by
  have hle := n.le_toInt
  have hlt := n.toInt_lt
  have hbound : n.toInt.natAbs < 10 ^ 10 := by omega
  refine ⟨natDigits 10 n.toInt.natAbs, ?_, isDigits_natDigits (by omega) _, digitsValue_natDigits (by omega) hbound,
    fun hhead => ?_⟩
  · unfold decimal
    split <;> rfl
  · obtain hzero | hpos := Nat.eq_zero_or_pos n.toInt.natAbs
    · rw [hzero]; rfl
    · exact absurd hhead (natDigits_head_ne_zero hpos hbound)

/-- R150's text of an integer is a line of R151's grammar with the integer as its value. -/
theorem IsDecimal.isIntegerLine {z : Int} {t : Text} (h : IsDecimal z t) : IsIntegerLine t z := by
  obtain ⟨ds, rfl, hds, hvalue, -⟩ := h
  by_cases hz : z < 0
  · exact ⟨['-'], ds, .inr (.inr rfl), by rw [if_pos hz], hds, by rw [if_pos rfl]; omega⟩
  · exact ⟨[], ds, .inl rfl, by rw [if_neg hz], hds, by rw [if_neg nofun]; omega⟩

end Sys2Proof.Machine
end

section
/-! I/O and halt: what `echo` does with the value read, and `input` with the host's answer
(spec/44_io_and_halt.md R150 to R153). -/

namespace Sys2Proof.Machine

variable {s s1 : State}

/-! ### `echo` -/

variable {d : Desc} {v c : Cell} {x : Text}

theorem exec_echo_of_textOf (h : resolve d s = .ok v s1) (hx : textOf v = Act.pure x) :
    exec (.echo d) s = .next { s1 with out := s1.out ++ x } := by
  show finish (((resolve d).bind fun v => (textOf v).bind writeOut) s) = _
  rw [Act.bind_ok h, hx]
  rfl

theorem echo_raises_of_resolve {e : FatalError} (h : resolve d s = .err e s1) : Raises (.echo d) s e :=
  raises_of_result rfl (Act.bind_err h)

theorem echo_raises_of_record {j : Instr} (h : resolve d s = .ok (.instr j) s1) :
    Raises (.echo d) s (.typeMismatch .echo .instr) :=
  raises_of_result rfl (Act.bind_ok h)

/-- A cell that holds no record has a text: that of its integer, `Unset` read as zero, or its own. -/
theorem textOf_lazyZero (hc : ∀ j, c ≠ .instr j) : ∃ x, textOf c.lazyZero = Act.pure x ∧
    (∀ n, c.lazyZero = .int n → IsDecimal n.toInt x) ∧ ∀ y, c = .text y → x = y := by
  cases c with
  | unset => exact ⟨_, rfl, fun n hn => by cases hn; exact isDecimal_decimal 0, nofun⟩
  | int m => exact ⟨_, rfl, fun n hn => by cases hn; exact isDecimal_decimal m, nofun⟩
  | text t => exact ⟨t, rfl, nofun, fun y hy => Cell.text.inj hy⟩
  | instr j => exact absurd rfl (hc j)

/-! ### `input` -/

variable {addr : Word} {n : Word}

theorem exec_input_unanswered (h : s.input = []) : exec (.input addr) s = .fault .awaitingInput := by
  simp [exec, execInput, State.readLine, h]

theorem acceptLine_of_not_integer (h : ¬ ∃ n : Word, IsIntegerLine x n.toInt) :
    acceptLine addr (.line x) = setFlag false := by
  simp only [acceptLine, parseInt32_eq_none h]

theorem acceptLine_of_integer (h : IsIntegerLine x n.toInt) :
    acceptLine addr (.line x) = (memWrite addr (.int n)).bind fun _ => setFlag true := by
  simp only [acceptLine, parseInt32_eq_some.mpr h]

end Sys2Proof.Machine
end

section
/-! The statements of spec/44_io_and_halt.md. -/

namespace Sys2Proof.Machine

/-- Settles O32: past the read, `echo` appends the text of the value, and only a record has none. -/
theorem echoRule : Obligations.EchoRule := by
  refine fun s d => ⟨fun e s1 => echo_raises_of_resolve, fun v s1 hv => ⟨?integer, ?text, ?record⟩⟩
  case integer =>
    rintro n rfl
    exact ⟨decimal n, isDecimal_decimal n, exec_echo_of_textOf hv rfl⟩
  case text =>
    rintro x rfl
    exact exec_echo_of_textOf hv rfl
  case record =>
    rintro j rfl
    exact echo_raises_of_record hv

/-- Settles O33: the operand resolves to the cell's value, which has a text; the read can only have made `Unset` zero
in the cell that it read. -/
theorem echoCompletesOnReadableOperands : Obligations.EchoCompletesOnReadableOperands := by
  intro s d c hnames hdata
  obtain ⟨x, hx, hdecimal, htext⟩ := textOf_lazyZero hdata
  obtain ⟨hd, hc⟩ | ⟨hd, b, hb, hin, rfl⟩ := hnames
  case inl =>
    have hmode : Desc.ind d ≠ true := by simp [hd]
    refine ⟨_, x, exec_echo_of_textOf (resolve_direct_ok hd hc) hx, rfl, hdecimal, htext, ?names,
      fun hu => ⟨?kept, rfl⟩, fun h => absurd h hmode, fun _ => rfl, fun k _ hk => State.setReg_get_of_ne _ hk,
      fun _ _ h => absurd h hmode⟩
    case names => exact .inl ⟨hd, State.setReg_get_self _ (State.nRegs_lt_of_get hc)⟩
    case kept =>
      rw [Cell.lazyZero_of_ne_unset hu]
      exact State.regs_set_of_get hc
  case inr =>
    have hmode : Desc.ind d ≠ false := by simp [hd]
    obtain ⟨-, -, -, hread, -⟩ := resolveRule s d
    obtain ⟨s1, hs1, hframe, hkept, hmem⟩ := (hread hd _ (ea_ok hb)).2 hin
    obtain ⟨m, rfl⟩ : ∃ m, s1 = { s with mem := m } := ⟨_, hframe⟩
    have hmemKept : s.cellAt (b + Desc.off d) ≠ .unset → m = s.mem := fun hu => congrArg State.mem (hkept hu)
    refine ⟨_, x, exec_echo_of_textOf hs1 hx, rfl, hdecimal, htext, ?names, fun hu => ⟨rfl, hmemKept hu⟩,
      fun _ => rfl, fun h => absurd h hmode, fun k h => absurd h hmode,
      fun b' a _ hb' ha => ?otherCells⟩
    case names => exact .inr ⟨hd, b, hb, hin, (hmem _).trans (if_pos rfl)⟩
    case otherCells =>
      obtain rfl : b = b' := Cell.int.inj (Option.some.inj (hb.symm.trans hb'))
      exact (hmem a).trans (if_neg ha)

/-- Settles O34: `input` acts on the oldest answer with that answer taken; a line is read exactly where it is of R151's
grammar and an `Int32`, and then the memory write comes before the flag. -/
theorem inputRule : Obligations.InputRule := by
  refine fun s addr => ⟨exec_input_unanswered, fun r rest hs => ?_⟩
  have hx : exec (.input addr) s = finish (acceptLine addr r { s with input := rest }) := execInput_of_answer hs
  refine ⟨?failure, ?_⟩
  case failure => rintro (rfl | rfl) <;> exact raises_of_result hx rfl
  rintro x rfl
  refine ⟨fun hno => ?refused, fun n hn => ⟨fun hout => ?outside, fun hin => ?stored⟩⟩
  case refused => rw [hx, acceptLine_of_not_integer hno]; rfl
  case outside =>
    rw [acceptLine_of_integer hn] at hx
    exact raises_of_result hx (Act.bind_err (memWrite_err (s := { s with input := rest }) (.int n) hout))
  case stored =>
    rw [acceptLine_of_integer hn, Act.bind_ok (memWrite_ok (s := { s with input := rest }) (.int n) hin)] at hx
    exact ⟨_, hx, rfl, fun b => Memory.read_write s.mem addr.toNat b (.int n)⟩

/-- Settles O46: every instruction gives a next state, but for an `input` with no answer waiting. -/
theorem onlyUnansweredInputWaits : Obligations.OnlyUnansweredInputWaits := by
  intro i s
  by_cases h : s.input = [] ∧ i.IsInput
  · obtain ⟨hs, hi⟩ := h
    obtain ⟨a, rfl⟩ := Instr.isInput_iff.mp hi
    rw [exec_input_unanswered hs]
    exact ⟨nofun, fun f => ⟨fun hf => by cases hf; exact ⟨rfl, hs, hi⟩, fun ⟨hf, _⟩ => hf ▸ rfl⟩⟩
  · obtain ⟨t, ht⟩ := exec_next (i := i) (s := s) fun hi hs => h ⟨hs, hi⟩
    rw [ht]
    exact ⟨nofun, fun f => ⟨nofun, fun ⟨_, hwait⟩ => absurd hwait h⟩⟩

/-- Settles O53: the text that is written is R150's, which is a line of R151's grammar. -/
theorem echoedIntegerReadsBack : Obligations.EchoedIntegerReadsBack := fun n =>
  parseInt32_eq_some.mpr (isDecimal_decimal n).isIntegerLine

/-- Settles O35: `halt` ends the run itself, after which the loop neither increments `pc` nor takes a step. -/
theorem haltRule : Obligations.HaltRule := by
  refine fun s => ⟨rfl, fun hr hm hc => step_of_exec_ended hr hm hc rfl nofun, fun hh t ht => ?_⟩
  obtain ⟨f, hf⟩ := step_of_ended (s := s) (by simp [hh])
  exact nomatch hf.symm.trans ht

end Sys2Proof.Machine
end

section
/-! Where an action ends: the state that an error leaves (spec/60_exceptions.md R161, R168). -/

namespace Sys2Proof.Machine

variable {α β : Type} {s t u w : State} {m : Act α} {f : α → Act β} {e : FatalError}

/-- The action, begun in `s`, ends in the state `w`, be it with a value or with an error. -/
def Act.EndsIn (m : Act α) (s w : State) : Prop := (∃ a, m s = .ok a w) ∨ ∃ e, m s = .err e w

/-- The action, begun in `s`, leaves exactly `w` if it ends in an error; if it ends in a value the run goes on as
before. -/
structure Act.FailsIn (m : Act α) (s w : State) : Prop where
  run_of_ok : ∀ a t, m s = .ok a t → t.run = s.run
  eq_of_err : ∀ e t, m s = .err e t → t = w

/-- The action writes nothing before an error of its own, and does not end the run. -/
def Act.FailsClean (m : Act α) : Prop := ∀ s, m.FailsIn s s

/-- The action writes nothing at all. -/
def Act.ReadsOnly (m : Act α) : Prop := ∀ s, m.EndsIn s s

theorem Act.FailsIn.of_ok {a : α} (h : m s = .ok a t) (ht : t.run = s.run) : m.FailsIn s w where
  run_of_ok _ _ h' := by cases h.symm.trans h'; exact ht
  eq_of_err _ _ h' := nomatch h.symm.trans h'

theorem Act.FailsIn.of_err (h : m s = .err e w) : m.FailsIn s w where
  run_of_ok _ _ h' := nomatch h.symm.trans h'
  eq_of_err _ _ h' := by cases h.symm.trans h'; rfl

theorem Act.FailsIn.bind (hm : m.FailsIn s w) (hf : ∀ a u, m s = .ok a u → (f a).FailsIn u w) :
    (m.bind f).FailsIn s w := by
  cases h : m s with
  | ok a u =>
    have hrest := hf a u h
    have hbind := Act.bind_ok (f := f) h
    exact ⟨fun b t hb => (hrest.run_of_ok b t (hbind ▸ hb)).trans (hm.run_of_ok a u h),
      fun e t he => hrest.eq_of_err e t (hbind ▸ he)⟩
  | err e u =>
    cases hm.eq_of_err e u h
    exact .of_err (Act.bind_err h)

/-- After a first statement that ends in `w` either way, an error of a rest that fails clean leaves `w`. -/
theorem Act.EndsIn.bind (hm : m.EndsIn s w) (hw : w.run = s.run) (hf : ∀ a, (f a).FailsClean) :
    (m.bind f).FailsIn s w := by
  obtain ⟨a, ha⟩ | ⟨e, he⟩ := hm
  · exact Act.FailsIn.bind (.of_ok ha hw) fun b u hb => by cases ha.symm.trans hb; exact hf a w
  · exact .of_err (Act.bind_err he)

theorem Act.ReadsOnly.bind (hm : m.ReadsOnly) (hf : ∀ a, (f a).FailsClean) : (m.bind f).FailsClean :=
  fun s => (hm s).bind rfl hf

/-- An instruction that ends the run in an error is left in the state in which its pseudocode fails, with the error in
`run`. -/
theorem Act.FailsIn.finish (hm : m.FailsIn s w) (hr : s.run = .running) (h : Machine.finish (m s) = .next t)
    (ht : t.run = .faulted e) : t = { w with run := .faulted e } := by
  cases hms : m s with
  | ok a u =>
    rw [hms] at h
    cases h
    cases ht.symm.trans ((hm.run_of_ok a t hms).trans hr)
  | err e' u =>
    rw [hms] at h
    cases hm.eq_of_err e' u hms
    cases h
    cases ht
    rfl

/-! ### Actions that write nothing before an error -/

theorem asInt_readsOnly (site : Site) (c : Cell) : (asInt site c).ReadsOnly := fun s => by
  cases c with
  | int n => exact .inl ⟨n, rfl⟩
  | unset | text | instr => exact .inr ⟨_, rfl⟩

theorem memRead_readsOnly (a : Word) : (memRead a).ReadsOnly := fun s => by
  by_cases h : s.InMem a
  · exact .inl ⟨_, memRead_ok h⟩
  · exact .inr ⟨_, memRead_err h⟩

theorem moveSource_num_readsOnly (n : Word) : (moveSource (.num n)).ReadsOnly := fun _ => .inl ⟨_, rfl⟩

theorem setFlag_failsClean (b : Bool) : (setFlag b).FailsClean := fun _ => .of_ok rfl rfl

theorem setPc_failsClean (v : Word) : (setPc v).FailsClean := fun s => by
  by_cases hv : v.toInt < 0
  · exact .of_err (setPc_err hv)
  · exact .of_ok (setPc_ok (Int.not_lt.mp hv)) rfl

theorem writeInt_failsClean (i : Nat) (n : Word) : (writeInt i n).FailsClean := fun s => by
  by_cases hi : i < s.nRegs
  · exact .of_ok (writeInt_ok n hi) rfl
  · exact .of_err (writeInt_err n (Nat.not_lt.mp hi))

theorem writeReg_failsClean (site : Site) (i : Nat) (c : Cell) : (writeReg site i c).FailsClean := fun s => by
  by_cases hi : i < s.nRegs
  · cases c with
    | instr j => exact .of_err (writeReg_instr site j hi)
    | unset | int | text => exact .of_ok (writeReg_ok site hi rfl) rfl
  · exact .of_err (writeReg_err site c (Nat.not_lt.mp hi))

theorem memWrite_failsClean (a : Word) (c : Cell) : (memWrite a c).FailsClean := fun s => by
  by_cases h : s.InMem a
  · exact .of_ok (memWrite_ok c h) rfl
  · exact .of_err (memWrite_err c h)

theorem assign_failsClean (site : Site) (d : Desc) (c : Cell) : (assign site d c).FailsClean := by
  cases hd : Desc.ind d with
  | false => rw [assign_direct site c hd]; exact writeReg_failsClean site _ c
  | true =>
    rw [assign_indirect site c hd]
    exact Act.ReadsOnly.bind (ea_state d) fun a => memWrite_failsClean a c

theorem acceptLine_failsClean (addr : Word) (r : ReadResult) : (acceptLine addr r).FailsClean := fun s => by
  cases r with
  | endOfInput | channelError => exact .of_err rfl
  | line l =>
    simp only [acceptLine]
    cases parseInt32 l with
    | none => exact setFlag_failsClean false s
    | some n => exact (memWrite_failsClean addr (.int n) s).bind fun _ u _ => .of_ok rfl rfl

/-! ### The stack helper -/

/-- A stack pointer that holds no integer, or stands outside the file, cannot be read. -/
theorem readSp_err (h : ¬ ∃ n, s.regs[s.spIndex]? = some (.int n)) : ∃ e, readSp s = .err e s := by
  cases hc : s.regs[s.spIndex]? with
  | none => exact ⟨_, Act.bind_err (readReg_err (List.getElem?_eq_none_iff.mp hc))⟩
  | some c => exact ⟨_, readSp_kind hc fun n hn => h ⟨n, hn ▸ hc⟩⟩

theorem stackPush_failsClean (v : Cell) : (stackPush v).FailsClean := fun s => by
  by_cases hsp : ∃ n, s.regs[s.spIndex]? = some (.int n)
  · obtain ⟨n, hn⟩ := hsp
    by_cases hin : s.InMem n
    · exact .of_ok (stackPush_ok v hn hin) rfl
    · exact .of_err (stackPush_range v hn hin)
  · obtain ⟨e, he⟩ := readSp_err hsp
    exact .of_err (Act.bind_err he)

theorem afterSpMove_of_int {n : Word} (k : Int) (h : s.regs[s.spIndex]? = some (.int n)) :
    afterSpMove k s = s.setReg s.spIndex (.int (wrap (n.toInt + k))) := by
  simp only [afterSpMove, h]; rfl

theorem afterSpMove_of_not_int (k : Int) (h : ¬ ∃ n, s.regs[s.spIndex]? = some (.int n)) : afterSpMove k s = s := by
  unfold afterSpMove
  split
  next n hn => exact absurd ⟨n, hn⟩ h
  next => rfl

theorem afterCallPush_of_int {n : Word} (h : s.regs[s.spIndex]? = some (.int n)) :
    afterCallPush s = if s.InMem n then s.pushed n (.int s.pc) else s := by
  have hmove : afterSpMove (-1) (s.setCell n (.int s.pc)) = s.pushed n (.int s.pc) :=
    (afterSpMove_of_int (s := s.setCell n (.int s.pc)) (-1) h).trans
      (by rw [← sub_eq_add_neg, wrap_toInt_sub_one]; rfl)
  simp only [afterCallPush, h, hmove]

theorem afterCallPush_of_not_int (h : ¬ ∃ n, s.regs[s.spIndex]? = some (.int n)) : afterCallPush s = s := by
  unfold afterCallPush
  split
  next n hn => exact absurd ⟨n, hn⟩ h
  next => rfl

/-- A pop whose pointer can be read raises it, whether the cell can be read or not. -/
theorem stackPop_endsIn (s : State) : stackPop.EndsIn s (afterSpMove 1 s) := by
  by_cases hsp : ∃ n, s.regs[s.spIndex]? = some (.int n)
  · obtain ⟨n, hn⟩ := hsp
    rw [afterSpMove_of_int 1 hn, wrap_toInt_add_one]
    by_cases hin : s.InMem (n + 1)
    · exact .inl ⟨_, stackPop_ok hn hin⟩
    · exact .inr ⟨_, stackPop_range hn hin⟩
  · rw [afterSpMove_of_not_int 1 hsp]
    obtain ⟨e, he⟩ := readSp_err hsp
    exact .inr ⟨e, Act.bind_err he⟩

theorem stackPush_pc_endsIn (s : State) : (stackPush (.int s.pc)).EndsIn s (afterCallPush s) := by
  by_cases hsp : ∃ n, s.regs[s.spIndex]? = some (.int n)
  · obtain ⟨n, hn⟩ := hsp
    rw [afterCallPush_of_int hn]
    split
    next hin => exact .inl ⟨_, stackPush_eq_pushed _ hn hin⟩
    next hout => exact .inr ⟨_, stackPush_range _ hn hout⟩
  · rw [afterCallPush_of_not_int hsp]
    obtain ⟨e, he⟩ := readSp_err hsp
    exact .inr ⟨e, Act.bind_err he⟩

/-! ### The storage accessor -/

theorem afterDirectRead_of_get {d : Desc} {c : Cell} (h : s.regs[Desc.idx d]? = some c) :
    afterDirectRead d s = s.setReg (Desc.idx d) c.lazyZero := by
  simp [afterDirectRead, State.setReg, List.modify_eq_set_getElem?, h]

theorem afterDirectRead_of_range {d : Desc} (h : s.regs[Desc.idx d]? = none) : afterDirectRead d s = s := by
  simp [afterDirectRead, List.modify_eq_set_getElem?, h]

theorem afterRead_direct {d : Desc} (h : Desc.ind d = false) : afterRead d s = afterDirectRead d s := by
  simp [afterRead, h]

/-- With an integer base, an indirect read makes a never-written cell of memory zero and changes nothing else. -/
theorem afterRead_indirect {d : Desc} {b : Word} (h : Desc.ind d = true) (hb : s.regs[Desc.idx d]? = some (.int b)) :
    afterRead d s =
      if s.InMem (b + Desc.off d) ∧ s.cellAt (b + Desc.off d) = .unset then s.setCell (b + Desc.off d) (.int 0)
      else s := by
  simp only [afterRead, h, hb, if_true]

theorem afterRead_of_ea_err {d : Desc} (h : Desc.ind d = true) (he : ea d s = .err e s) : afterRead d s = s := by
  unfold afterRead
  rw [if_pos h]
  split
  next b hb => cases he.symm.trans (ea_ok hb)
  next => rfl

/-- What a read through a descriptor can do: fail with nothing written, give a written cell with nothing written, or
give the zero that it has put in a never-written cell (R55, R56). -/
theorem resolve_cases (d : Desc) (s : State) :
    ((∃ e, resolve d s = .err e s) ∧ afterRead d s = s) ∨
    ((∃ c, resolve d s = .ok c s ∧ c ≠ .unset) ∧ afterRead d s = s) ∨
    resolve d s = .ok (.int 0) (afterRead d s) := by
  cases hd : Desc.ind d with
  | false =>
    rw [afterRead_direct hd]
    cases hc : s.regs[Desc.idx d]? with
    | none =>
      exact .inl ⟨⟨_, resolve_direct_err hd (List.getElem?_eq_none_iff.mp hc)⟩, afterDirectRead_of_range hc⟩
    | some c =>
      have hread := resolve_direct_ok hd hc
      rw [← afterDirectRead_of_get hc] at hread
      by_cases hu : c = .unset
      · subst hu; exact .inr (.inr hread)
      · have hsame : afterDirectRead d s = s := by
          rw [afterDirectRead_of_get hc, Cell.lazyZero_of_ne_unset hu, State.setReg, State.regs_set_of_get hc]
        rw [hsame] at hread ⊢
        exact .inr (.inl ⟨⟨_, hread, Cell.lazyZero_ne_unset c⟩, rfl⟩)
  | true =>
    rw [resolve_indirect hd]
    obtain ⟨a, ha⟩ | ⟨e, he⟩ := ea_state d s
    · rw [Act.bind_ok ha]
      obtain ⟨⟨b, hb, rfl⟩, -⟩ := ea_eq_ok ha
      rw [afterRead_indirect hd hb]
      by_cases hin : s.InMem (b + Desc.off d)
      · by_cases hu : s.cellAt (b + Desc.off d) = .unset
        · rw [if_pos ⟨hin, hu⟩]; exact .inr (.inr (resolveMem_unset hin hu))
        · rw [if_neg fun h => hu h.2]; exact .inr (.inl ⟨⟨_, resolveMem_written hin hu, hu⟩, rfl⟩)
      · rw [if_neg fun h => hin h.1]; exact .inl ⟨⟨_, resolveMem_err hin⟩, rfl⟩
    · exact .inl ⟨⟨e, Act.bind_err he⟩, afterRead_of_ea_err hd he⟩

theorem resolve_endsIn (d : Desc) (s : State) : (resolve d).EndsIn s (afterRead d s) := by
  obtain ⟨⟨e, he⟩, hs⟩ | ⟨⟨c, hc, -⟩, hs⟩ | hz := resolve_cases d s
  · exact .inr ⟨e, by rw [hs, he]⟩
  · exact .inl ⟨c, by rw [hs, hc]⟩
  · exact .inl ⟨_, hz⟩

/-- Only a read that gives zero can have written. -/
theorem resolve_eq_self {d : Desc} {c : Cell} (h : resolve d s = .ok c t) (hc : c ≠ .int 0) : t = s := by
  obtain ⟨⟨e, he⟩, -⟩ | ⟨⟨c', hc', -⟩, -⟩ | hz := resolve_cases d s
  · cases h.symm.trans he
  · cases h.symm.trans hc'; rfl
  · cases h.symm.trans hz; exact absurd rfl hc

/-! ### What stays when a source is read or the stack pointer moves -/

/-- `t` differs from `s` in storage and in the answers still waiting at most. -/
structure State.KeepsControl (s t : State) : Prop where
  pc : t.pc = s.pc
  flag : t.flag = s.flag
  out : t.out = s.out
  run : t.run = s.run

theorem State.KeepsControl.refl (s : State) : s.KeepsControl s := ⟨rfl, rfl, rfl, rfl⟩

theorem State.KeepsControl.trans (h : s.KeepsControl t) (h' : t.KeepsControl u) : s.KeepsControl u :=
  ⟨h'.pc.trans h.pc, h'.flag.trans h.flag, h'.out.trans h.out, h'.run.trans h.run⟩

theorem afterDirectRead_keepsControl (d : Desc) (s : State) : s.KeepsControl (afterDirectRead d s) :=
  ⟨rfl, rfl, rfl, rfl⟩

theorem afterRead_keepsControl (d : Desc) (s : State) : s.KeepsControl (afterRead d s) := by
  unfold afterRead
  split
  next =>
    split
    next =>
      split
      next => exact ⟨rfl, rfl, rfl, rfl⟩
      next => exact .refl s
    next => exact .refl s
  next => exact afterDirectRead_keepsControl d s

theorem afterTwoReads_keepsControl (d e : Desc) (s : State) : s.KeepsControl (afterTwoReads d e s) := by
  unfold afterTwoReads
  split
  next => exact ⟨rfl, rfl, rfl, rfl⟩
  next => exact .refl s

theorem afterSpMove_keepsControl (k : Int) (s : State) : s.KeepsControl (afterSpMove k s) := by
  unfold afterSpMove
  split
  next => exact ⟨rfl, rfl, rfl, rfl⟩
  next => exact .refl s

theorem afterCallPush_keepsControl (s : State) : s.KeepsControl (afterCallPush s) := by
  unfold afterCallPush
  split
  next n _ =>
    split
    next =>
      have hcell : s.KeepsControl (s.setCell n (.int s.pc)) := ⟨rfl, rfl, rfl, rfl⟩
      exact hcell.trans (afterSpMove_keepsControl (-1) _)
    next => exact .refl s
  next => exact .refl s

theorem writtenBeforeError_keepsControl (i : Instr) (s : State) : s.KeepsControl (writtenBeforeError i s) := by
  cases i with
  | add _ a b | mul _ a b | testEquals a b => exact afterTwoReads_keepsControl a b s
  | move _ src =>
    cases src with
    | num n => exact .refl s
    | reg d => exact afterRead_keepsControl d s
  | push r => exact afterDirectRead_keepsControl r s
  | pop | ret => exact afterSpMove_keepsControl 1 s
  | call => exact afterCallPush_keepsControl s
  | input => exact ⟨rfl, rfl, rfl, rfl⟩
  | increment | decrement | load | jump | echo | halt => exact .refl s

end Sys2Proof.Machine
end

section
/-! The state in which each instruction's pseudocode fails (spec/60_exceptions.md R161, R168). -/

namespace Sys2Proof.Machine

variable {α : Type} {s t : State} {e : FatalError}

theorem resolve_failsClean (d : Desc) : (resolve d).FailsClean := fun s => by
  obtain ⟨⟨e, he⟩, -⟩ | ⟨⟨c, hc, -⟩, -⟩ | hz := resolve_cases d s
  · exact .of_err he
  · exact .of_ok hc rfl
  · exact .of_ok hz (afterRead_keepsControl d s).run

section TwoReads

variable {d d' : Desc} {f : Cell → Cell → Act α} (hf : ∀ a b, (f a b).FailsClean)
include hf

/-- Once the first read has given a value, an error comes after both reads or in the second, which then writes
nothing. -/
theorem twoReads_failsIn_of_ok {c : Cell} (hc : resolve d s = .ok c (afterRead d s)) :
    ((resolve d).bind fun a => (resolve d').bind (f a)).FailsIn s (afterRead d' (afterRead d s)) :=
  Act.FailsIn.bind (.of_ok hc (afterRead_keepsControl d s).run) fun a u ha => by
    cases hc.symm.trans ha
    exact (resolve_endsIn d' _).bind (afterRead_keepsControl d' _).run (hf c)

theorem twoReads_failsIn (hd : Desc.ind d = false) (hd' : Desc.ind d' = false) (s : State) :
    ((resolve d).bind fun a => (resolve d').bind (f a)).FailsIn s (afterTwoReads d d' s) := by
  unfold afterTwoReads
  split
  next hi =>
    have hget := List.getElem?_eq_getElem hi
    have hread := resolve_direct_ok hd hget
    rw [← afterDirectRead_of_get hget, ← afterRead_direct hd] at hread
    rw [← afterRead_direct hd, ← afterRead_direct hd']
    exact twoReads_failsIn_of_ok hf hread
  next hi => exact .of_err (twoReads_first_err hd (Nat.not_lt.mp hi))

/-- In whatever modes, reads change only storage before the error. -/
theorem twoReads_failsIn_keepsControl (d d' : Desc) (s : State) :
    ∃ w, s.KeepsControl w ∧ ((resolve d).bind fun a => (resolve d').bind (f a)).FailsIn s w := by
  obtain ⟨c, hc⟩ | ⟨x, hx⟩ := resolve_endsIn d s
  · exact ⟨_, (afterRead_keepsControl d s).trans (afterRead_keepsControl d' _), twoReads_failsIn_of_ok hf hc⟩
  · exact ⟨_, afterRead_keepsControl d s, .of_err (Act.bind_err hx)⟩

end TwoReads

/-- The checks and the write come after both reads. -/
theorem binaryOp_failsIn {f : Word → Word → Word} {site1 site2 : Site} {rd rs1 rs2 : Desc}
    (h1 : Desc.ind rs1 = false) (h2 : Desc.ind rs2 = false) (s : State) :
    (binaryOp f site1 site2 rd rs1 rs2).FailsIn s (afterTwoReads rs1 rs2 s) := by
  have hchecks : ∀ a b, ((asInt site1 a).bind fun na => (asInt site2 b).bind fun nb =>
      writeInt (Desc.idx rd) (f na nb)).FailsClean := fun a b =>
    (asInt_readsOnly site1 a).bind fun na => (asInt_readsOnly site2 b).bind fun nb =>
      writeInt_failsClean (Desc.idx rd) (f na nb)
  exact twoReads_failsIn hchecks h1 h2 s

/-- The check after the read can only fail on a value that the read found as it stands; the write goes to the register
that was read. -/
theorem unaryOp_failsIn {r : Desc} (f : Word → Word) (site : Site) (hr : Desc.ind r = false) (s : State) :
    (unaryOp f site r).FailsIn s s :=
  (resolve_failsClean r s).bind fun c u hc => by
    cases c with
    | unset => exact absurd rfl (resolve_ne_unset hc)
    | int n =>
      obtain ⟨v, hv, -, rfl⟩ := resolveReg_eq_ok (resolve_direct hr ▸ hc)
      have hlt : Desc.idx r < (s.setReg (Desc.idx r) v.lazyZero).nRegs := by simpa using State.nRegs_lt_of_get hv
      exact .of_ok (writeInt_ok (f n) hlt) rfl
    | text | instr =>
      obtain rfl := resolve_eq_self hc nofun
      exact .of_err rfl

/-- Only a record has no text, and a read that gives a record has written nothing. -/
theorem echo_failsIn (d : Desc) (s : State) : ((resolve d).bind fun v => (textOf v).bind writeOut).FailsIn s s :=
  (resolve_failsClean d s).bind fun v u hv => by
    cases v with
    | unset => exact absurd rfl (resolve_ne_unset hv)
    | int | text => exact .of_ok rfl rfl
    | instr =>
      obtain rfl := resolve_eq_self hv nofun
      exact .of_err rfl

/-- An instruction that the construction check lets exist, and that ends the run in an error, has made exactly the
writes that come before the error. -/
theorem exec_faulted_eq {i : Instr} (hwf : i.wf = true) (hr : s.run = .running) (h : exec i s = .next t)
    (ht : t.run = .faulted e) : t = { writtenBeforeError i s with run := .faulted e } := by
  cases i with
  | add rd a b | mul rd a b =>
    obtain ⟨⟨-, ha⟩, hb⟩ : (Desc.ind rd = false ∧ Desc.ind a = false) ∧ Desc.ind b = false := by
      simpa [Instr.wf] using hwf
    exact (binaryOp_failsIn ha hb s).finish hr h ht
  | increment r | decrement r =>
    exact (unaryOp_failsIn _ _ (by simpa [Instr.wf] using hwf) s).finish hr h ht
  | load rd addr =>
    exact ((memRead_readsOnly addr).bind (writeReg_failsClean .loadDst (Desc.idx rd)) s).finish hr h ht
  | move dst src =>
    cases src with
    | num n =>
      exact ((moveSource_num_readsOnly n).bind (assign_failsClean .moveDst dst) s).finish hr h ht
    | reg d =>
      exact (Act.EndsIn.bind (m := moveSource (.reg d)) (resolve_endsIn d s) (afterRead_keepsControl d s).run
        (assign_failsClean .moveDst dst)).finish hr h ht
  | push r =>
    have hread := resolve_endsIn r s
    rw [afterRead_direct (by simpa [Instr.wf] using hwf)] at hread
    exact (hread.bind rfl stackPush_failsClean).finish hr h ht
  | pop r =>
    exact ((stackPop_endsIn s).bind (afterSpMove_keepsControl 1 s).run
      (writeReg_failsClean .popDst (Desc.idx r))).finish hr h ht
  | call target =>
    exact ((stackPush_pc_endsIn s).bind (afterCallPush_keepsControl s).run fun _ =>
      setPc_failsClean (target - 1)).finish hr h ht
  | ret =>
    exact ((stackPop_endsIn s).bind (afterSpMove_keepsControl 1 s).run fun c =>
      (asInt_readsOnly .ret c).bind setPc_failsClean).finish hr h ht
  | jump target => exact (setPc_failsClean (target - 1) s).finish hr h ht
  | testEquals a b =>
    obtain ⟨ha, hb⟩ : Desc.ind a = false ∧ Desc.ind b = false := by simpa [Instr.wf] using hwf
    exact (twoReads_failsIn (fun x y => setFlag_failsClean (valuesEqual x y)) ha hb s).finish hr h ht
  | echo d => exact (echo_failsIn d s).finish hr h ht
  | input addr =>
    obtain ⟨r, rest, hs, h⟩ := execInput_next h
    have heq := (acceptLine_failsClean addr r { s with input := rest }).finish hr h ht
    rw [heq, writtenBeforeError, hs, List.tail_cons]
  | halt => cases h; cases ht

/-! ### What no instruction has changed at its error, well-formed or not -/

/-- Of the instructions that the construction check refuses, none writes `pc` or the output, and only `testEquals`
writes the flag. -/
theorem Instr.not_wf_writes {i : Instr} (h : ¬ i.wf = true) :
    ¬ i.WritesPc ∧ ¬ i.IsEcho ∧ (i.WritesFlag → ∃ a b, i = .testEquals a b) := by
  cases i with
  | testEquals a b => exact ⟨id, id, fun _ => ⟨a, b, rfl⟩⟩
  | add | mul | increment | decrement | load | push | pop => exact ⟨id, id, False.elim⟩
  | move | call | ret | jump | echo | input | halt => exact absurd rfl h

theorem testEquals_faulted_flag {a b : Desc} (hr : s.run = .running) (h : exec (.testEquals a b) s = .next t)
    (ht : t.run = .faulted e) : t.flag = s.flag := by
  obtain ⟨w, hw, hm⟩ := twoReads_failsIn_keepsControl (fun x y => setFlag_failsClean (valuesEqual x y)) a b s
  rw [hm.finish hr h ht]
  exact hw.flag

theorem exec_faulted_keeps {i : Instr} (hr : s.run = .running) (h : exec i s = .next t) (ht : t.run = .faulted e) :
    t.pc = s.pc ∧ t.flag = s.flag ∧ t.out = s.out := by
  by_cases hwf : i.wf = true
  · obtain ⟨hpc, hflag, hout, -⟩ := writtenBeforeError_keepsControl i s
    rw [exec_faulted_eq hwf hr h ht]
    exact ⟨hpc, hflag, hout⟩
  · obtain ⟨hpc, hecho, htest⟩ := Instr.not_wf_writes hwf
    refine ⟨exec_pc_of_not_writesPc hpc h, ?_, exec_out_of_not_isEcho hecho h⟩
    by_cases hflag : i.WritesFlag
    · obtain ⟨a, b, rfl⟩ := htest hflag
      exact testEquals_faulted_flag hr h ht
    · exact exec_flag_of_not_writesFlag hflag h

end Sys2Proof.Machine
end

section
/-! The statement of spec/60_exceptions.md. -/

namespace Sys2Proof.Machine

/-- Settles O48: each instruction is a read or a stack access, which ends in the same state whether it fails or not, and
a rest that writes nothing before an error of its own. -/
theorem errorKeepsPcAndEarlierWrites : Obligations.ErrorKeepsPcAndEarlierWrites := by
  refine ⟨fun _ _ _ _ => exec_faulted_keeps, fun _ _ _ _ => exec_faulted_eq, fun s r sp hsp hout => ?pop,
    fun s target sp hsp hin hneg => ?call⟩
  case pop => exact congrArg finish (Act.bind_err (stackPop_range hsp hout))
  case call =>
    refine ⟨(s.pushed sp (.int s.pc)).raise (.negativePC (target - 1)), ?_, rfl, ?_, ?_⟩
    · rw [exec_call_of_sp hsp hin, setPc_err hneg, finish_err]
    · rw [State.raise_mem, State.pushed_read, if_pos rfl]
    · rw [State.raise_regs, State.pushed_get _ (State.nRegs_lt_of_get hsp), if_pos rfl]

end Sys2Proof.Machine
end

section
/-! The statement of spec/70_reset_and_hazards.md. -/

namespace Sys2Proof.Machine

/-- A step that fetches a `jump` or a `call` and does not fault has come by the target less one, which is not negative,
to the target itself (R33, R193). -/
theorem step_transfer_pc {i : Instr} {s t : State} {target : Word} (hi : i = .jump target ∨ i = .call target)
    (hc : s.cellAt s.pc = .instr i) (h : step s = .next t) (ht : t.Unfaulted) :
    0 ≤ (target - 1).toInt ∧ t.pc = target := by
  obtain ⟨hr, ⟨e, -, rfl⟩ | ⟨j, -, hj, hcase⟩⟩ := step_cases h
  · exact absurd rfl (ht e)
  · obtain rfl : j = i := Cell.instr.inj (hj.symm.trans hc)
    obtain ⟨he, hended⟩ | ⟨u, he, hu, rfl⟩ := hcase
    · have hne : j ≠ .halt := by obtain rfl | rfl := hi <;> nofun
      exact absurd (exec_running hne hr he ht) hended
    · obtain ⟨hv, hpc⟩ := exec_transfer_pc hi he ht
      exact ⟨hv, by rw [State.incPc_of_pc hpc, BitVec.sub_add_cancel]⟩

/-- Settles O41: `pc` is the target, and zero less one is negative. -/
theorem transfersNeverReachAddressZero : Obligations.TransfersNeverReachAddressZero := by
  intro s t target hc h ht hzero
  have htransfer : 0 ≤ (target - 1).toInt ∧ t.pc = target := by
    obtain hc | hc := hc
    · exact step_transfer_pc (.inl rfl) hc h ht
    · exact step_transfer_pc (.inr rfl) hc h ht
  obtain ⟨hnonneg, rfl⟩ := htransfer
  rw [hzero] at hnonneg
  exact absurd hnonneg (by decide)

end Sys2Proof.Machine
end
